-- ==== Sys2Proof/Word.lean ====
section
/-! DEFINITION. The widths of the core's values (spec/00_scope.md R5, R11): all unsigned. -/

namespace Sys2Proof

/-- One byte: a general register, a memory cell, a timer, the immediate `NN`. -/
abbrev Byte := BitVec 8

/-- 16 bits: the instruction word, the index register, the program counter, a return address. -/
abbrev Word := BitVec 16

/-- 4 bits: one of the four fields of an instruction word (R91). -/
abbrev Nibble := BitVec 4

/-- 12 bits: the immediate `NNN` (R91). -/
abbrev Addr12 := BitVec 12

/-- A general register's number, always in 0 to 15 (R21). -/
abbrev Reg := Fin 16

/-- The register that doubles as the flag register (R22). -/
abbrev flagReg : Reg := 15

end Sys2Proof
end

