-- ==== Sys2Proof/Machine/Flags.lean ====
section
/-! DEFINITION. The flag values of spec/10_state.md R23, each 0x00 or 0x01, computed from the operands
before any write. The collision flag is computed by the rasterizer (Machine/Display.lean). -/

namespace Sys2Proof.Machine

/-- 1 or 0 as a register's value (R23). -/
def flagByte (b : Bool) : Byte := if b then 0x01#8 else 0x00#8

/-- add: 1 iff `a + b > 255` (R166). -/
def carryFlag (a b : Byte) : Byte := flagByte (decide (a.toNat + b.toNat > 255))

/-- sub and subn: 1 iff no borrow, `a >= b` (R167, R168). -/
def noBorrowFlag (a b : Byte) : Byte := flagByte (decide (a.toNat ≥ b.toNat))

/-- shr: bit 0 before the shift (R169). -/
def shiftedOutLow (b : Byte) : Byte := flagByte (b.getLsbD 0)

/-- shl: bit 7 before the shift (R170). -/
def shiftedOutHigh (b : Byte) : Byte := flagByte (b.getLsbD 7)

end Sys2Proof.Machine
end

