-- ==== Sys2Proof/Config.lean ====
section
/-! DEFINITION. The events of the environment, and what an implementation fixes and the spec leaves open, with
the free values: these are opaque, no proof can see a value of them. -/

namespace Sys2Proof.Machine

/-- An event that drives the core (spec/00_scope.md R7): the host's calls, and `tick`, which executes one
instruction. -/
inductive Event where
  | reset
  | loadProgram (image : List Byte)
  | tick
  | tickTimers
  | setKeys (pressed : Vector Bool 16)
  deriving DecidableEq, Repr, Inhabited

end Sys2Proof.Machine

namespace Sys2Proof

/-- FONT_BASE, the font's base address: an OPEN parameter of the spec (spec/00_scope.md R6, D6). The
type carries its one constraint, FONT_BASE + 80 <= 0x200. Log entry 1. -/
opaque Config.fontBase : Fin 433

/-- The random byte of the `n`-th draw: a free 8-bit input under no law (spec/42_load_alu.md R171,
D14). FREE VALUE, log entry 7. -/
opaque Config.randomByte : Nat → Byte

/-- The `n`-th event of an environment nothing is known of: any sequence of the five events, in any order
and without end (spec/00_scope.md R8, spec/60_exceptions.md R256, R259; D2). FREE VALUE, log entry 8. -/
opaque Config.environmentEvent : Nat → Machine.Event

end Sys2Proof
end

