-- ==== Sys2Proof/Machine/Font.lean ====
section
/-! DEFINITION. The built-in font: its base address (spec/00_scope.md R6), its 80 bytes
(spec/10_state.md R36) and `FontGlyphAddress` (spec/20_memory.md R70). -/

namespace Sys2Proof.Machine

/-- FONT_BASE, which the spec leaves open but for FONT_BASE + 80 <= 0x200 (R6; log entry 1). -/
def fontBase : Nat := Config.fontBase.val

/-- Glyphs 0 to 7 (R36). Glyph 0 is the source's; the others are the spec's general knowledge
(UNVERIFIED, log entry 2). -/
def fontBytesLow : List Byte := [
  0xF0, 0x90, 0x90, 0x90, 0xF0,
  0x20, 0x60, 0x20, 0x20, 0x70,
  0xF0, 0x10, 0xF0, 0x80, 0xF0,
  0xF0, 0x10, 0xF0, 0x10, 0xF0,
  0x90, 0x90, 0xF0, 0x10, 0x10,
  0xF0, 0x80, 0xF0, 0x10, 0xF0,
  0xF0, 0x80, 0xF0, 0x90, 0xF0,
  0xF0, 0x10, 0x20, 0x40, 0x40]

/-- Glyphs 8 to F (R36; UNVERIFIED, log entry 2). -/
def fontBytesHigh : List Byte := [
  0xF0, 0x90, 0xF0, 0x90, 0xF0,
  0xF0, 0x90, 0xF0, 0x10, 0xF0,
  0xF0, 0x90, 0xF0, 0x90, 0x90,
  0xE0, 0x90, 0xE0, 0x90, 0xE0,
  0xF0, 0x80, 0x80, 0x80, 0xF0,
  0xE0, 0x90, 0x90, 0x90, 0xE0,
  0xF0, 0x80, 0xF0, 0x80, 0xF0,
  0xF0, 0x80, 0xF0, 0x80, 0x80]

/-- The 80 bytes of the font, glyph `g` at offset `5 * g` (R36). -/
def fontBytes : List Byte := fontBytesLow ++ fontBytesHigh

/-- `FontGlyphAddress(g) = FONT_BASE + 5 * g` for a glyph number 0 to 15 (R70). -/
def fontGlyphAddress (g : Fin 16) : Nat := fontBase + 5 * g.val

end Sys2Proof.Machine
end

