-- ==== Sys2Proof/Syntax.lean ====
section
/-! DEFINITION. The 34 instructions of spec/30_encoding.md R94, one constructor per row of
spec/opcode_table.json, with the operands R91 to R93 give them. -/

namespace Sys2Proof

/-- An instruction. `x` and `y` are the register fields `X` and `Y`, `nn`, `nnn`, `n` the immediates
`NN`, `NNN`, `N` (R91). The names are those of the table, in camel case; `ret` is `return`. -/
inductive Instr where
  | clearScreen
  | ret
  | jump (nnn : Addr12)
  | call (nnn : Addr12)
  | skipEq (x : Reg) (nn : Byte)
  | skipNeq (x : Reg) (nn : Byte)
  | skipEqReg (x y : Reg)
  | loadImm (x : Reg) (nn : Byte)
  | addImm (x : Reg) (nn : Byte)
  | move (x y : Reg)
  | or (x y : Reg)
  | and (x y : Reg)
  | xor (x y : Reg)
  | add (x y : Reg)
  | sub (x y : Reg)
  | subn (x y : Reg)
  | shr (x y : Reg)
  | shl (x y : Reg)
  | skipNeqReg (x y : Reg)
  | loadIndex (nnn : Addr12)
  | jumpOffset (nnn : Addr12)
  | random (x : Reg) (nn : Byte)
  | draw (x y : Reg) (n : Nibble)
  | skipKeyPressed (x : Reg)
  | skipKeyNotPressed (x : Reg)
  | loadDelay (x : Reg)
  | setDelay (x : Reg)
  | setSound (x : Reg)
  | addIndex (x : Reg)
  | getKey (x : Reg)
  | fontAddress (x : Reg)
  | bcd (x : Reg)
  | storeRegs (x : Reg)
  | loadRegs (x : Reg)
  deriving DecidableEq, Repr

end Sys2Proof
end

