-- ==== Sys2Proof/Machine/State.lean ====
section
/-! DEFINITION. The state of the core (spec/10_state.md) as plain data, its value after reset (R46), the
reasons a step can stop, and the schedule of the events that drive the core (spec/00_scope.md R8). -/

namespace Sys2Proof.Machine

/-- The run state (R43). A fatal error is the outcome `fault`; `fatal` is the value the spec gives the
state after one, in which only `reset` acts (R127, R243). Log entry 9. -/
inductive RunState where
  | running
  | fatal
  deriving DecidableEq, Repr

/-- A recoverable error, as the error output reports it (R241, R244). -/
inductive Diagnostic where
  /-- The fetched word matches no row of the opcode map (R247). -/
  | invalidInstruction (w : Word)
  /-- A return on the empty stack (R248). -/
  | stackUnderflow
  deriving DecidableEq, Repr

/-- The events to come, a sequence without end (R8, D2), as plain data. Log entry 8. -/
inductive Schedule where
  /-- Ticks for ever. -/
  | ticks
  /-- Whatever the environment does, from its `n`-th event on. -/
  | free (n : Nat)
  /-- One given event, then the rest. -/
  | cons (e : Event) (rest : Schedule)
  deriving DecidableEq, Repr

/-- Why the machine stops: a fatal error (R243). The other fatal causes of R241 cannot be raised by
this core (R246, R249, R250; log entry 21). -/
inductive Fault where
  /-- `Fatal(MemOutOfBounds, addr)`: raised by fetch, draw, bcd, store-regs and load-regs at an address
  of 4096 or more (R245). It is the spec's own error, and the state after it is unspecified (R126):
  safe, log entry 9. -/
  | memOutOfBounds (addr : Nat)
  deriving DecidableEq, Repr

/-- Why the model gives no step. -/
inductive Refusal where
  /-- Raised by `exec` for an instruction that has no meaning yet: safe. No arm of this model does. -/
  | notModelled (mnemonic : String)
  /-- Raised by `load_program` once a tick has happened since reset: the spec gives that event no step
  (R72). Safe for the core, log entry 11. No instruction raises it. -/
  | loadAfterTick
  deriving DecidableEq, Repr

/-- Memory: (address, byte) pairs in rising address order, no entry equal to what an unlisted address
reads as (`Memory.initByte`), so that equal memories are equal lists. -/
abbrev Memory := List Host.Cell

/-- One row of the display, column 0 first (R38). -/
abbrev PixelRow := Vector Bool 64

/-- The display: `fb[y][x]` is row `y`, column `x` (R38). -/
abbrev Framebuffer := Vector PixelRow 32

/-- The whole state of the core. The first ten fields are the table of R45; `errOut` is the error output
of D1; the last three are the model's own (log entries 7, 8, 11). -/
structure State where
  /-- `x[0]` to `x[15]` (R20); `x[15]` is the flag register (R22). -/
  regs     : Vector Byte 16
  /-- `I`, the index register, all 16 bits kept (R27). -/
  index    : Word
  /-- The program counter (R28). -/
  pc       : Word
  /-- The call stack, its last element the top (R13, R33); depth unbounded (R34). -/
  stack    : List Word
  /-- The 4096 bytes of `mem` (R35). -/
  mem      : Memory
  /-- The framebuffer (R38). -/
  fb       : Framebuffer
  /-- `DT`, the delay timer (R41). -/
  delay    : Byte
  /-- `ST`, the sound timer (R41). -/
  sound    : Byte
  /-- `keys[0]` to `keys[15]`, the keypad snapshot (R42). -/
  keys     : Vector Bool 16
  /-- The run state (R43). -/
  run      : RunState
  /-- The error output: the diagnostic of the latest tick, if it reported one (D1, R244). Log entry 10. -/
  errOut   : Option Diagnostic
  /-- The model's own: a tick has happened since reset (R72). Log entry 11. -/
  ticked   : Bool
  /-- The model's own: how many random bytes have been drawn (R171). Log entry 7. -/
  draws    : Nat
  /-- The model's own: the events to come (R8, D2). Log entry 8. -/
  schedule : Schedule
  deriving DecidableEq, Repr

/-- The machine right after reset (R46, R280). The pc, the display and the font are the source's; the
zeros, the empty stack and RUNNING are the spec's decisions D3 and D10 (UNVERIFIED, log entry 3);
`errOut`, `ticked`, `draws`, `schedule` are DESIGN CHOICE (log entries 7, 8, 10, 11). -/
def State.reset : State where
  regs     := Vector.replicate 16 0x00#8
  index    := 0x0000#16
  pc       := 0x0200#16
  stack    := []
  mem      := []
  fb       := Vector.replicate 32 (Vector.replicate 64 false)
  delay    := 0x00#8
  sound    := 0x00#8
  keys     := Vector.replicate 16 false
  run      := .running
  errOut   := none
  ticked   := false
  draws    := 0
  schedule := .free 0

end Sys2Proof.Machine
end

