-- ==== Sys2Proof/Machine/Memory.lean ====
section
/-! DEFINITION. Memory as a list of cells: what an unlisted address reads as, reading and writing one
byte, and the canonical form. Bounds are checked in Machine/Ops.lean. -/

namespace Sys2Proof.Machine

/-- What an address nothing has written reads as: memory's value after reset, the font at FONT_BASE and
0x00 elsewhere (R46, R69; the zeros are decision D3, log entry 12). The font lies below 0x200 (R6), so
an address of the program region is settled without FONT_BASE. -/
def Memory.initByte (a : Nat) : Byte :=
  if 0x200 ≤ a then 0x00#8
  else if fontBase ≤ a then fontBytes.getD (a - fontBase) 0x00#8
  else 0x00#8

/-- The byte at an address. -/
def Memory.read : Memory → Nat → Byte
  | [], a => Memory.initByte a
  | (b, v) :: rest, a => if a = b then v else Memory.read rest a

/-- Put an entry in its place in rising address order, in place of the entry at that address if there
is one. -/
def Memory.insert (a : Nat) (v : Byte) : Memory → Memory
  | [] => [(a, v)]
  | (b, u) :: rest =>
    if a < b then (a, v) :: (b, u) :: rest
    else if a = b then (a, v) :: rest
    else (b, u) :: Memory.insert a v rest

/-- Take out the entry at an address, if there is one. -/
def Memory.remove (a : Nat) : Memory → Memory
  | [] => []
  | (b, u) :: rest => if a = b then rest else (b, u) :: Memory.remove a rest

/-- Write one byte and keep the canonical form: a byte equal to what the unlisted address reads as is
held by listing nothing. -/
def Memory.write (m : Memory) (a : Nat) (v : Byte) : Memory :=
  if v = Memory.initByte a then Memory.remove a m else Memory.insert a v m

/-- The canonical form from address `lo` on: addresses strictly rising, inside the address space, no
entry equal to what the unlisted address reads as. -/
def Memory.wfFrom (lo : Nat) : Memory → Bool
  | [] => true
  | (a, v) :: rest =>
    decide (lo ≤ a) && decide (a < 4096) && (v != Memory.initByte a) && Memory.wfFrom (a + 1) rest

/-- The canonical form of memory. -/
def Memory.wf (m : Memory) : Bool := Memory.wfFrom 0 m

end Sys2Proof.Machine
end

