-- ==== Sys2Proof/Machine/Ops.lean ====
section
/-! DEFINITION. The named operations over the state: registers, pc, stack, the checked memory accesses of
spec/20_memory.md, the random input, and the two classes of error of spec/60_exceptions.md. -/

namespace Sys2Proof.Machine

/-! ## Registers, pc, stack, timers -/

/-- Read `x[r]` (R20). -/
def State.reg (s : State) (r : Reg) : Byte := s.regs[r.val]

/-- `x[r] <- v` (R20). -/
def State.setReg (s : State) (r : Reg) (v : Byte) : State := { s with regs := s.regs.set r.val v }

/-- `x[X] <- v`, then `x[15] <- flag`: the result first, the flag last, so that with `X = 15` the flag
stands (R26; UNVERIFIED, log entry 6). -/
def State.setRegThenFlag (s : State) (r : Reg) (v flag : Byte) : State :=
  (s.setReg r v).setReg flagReg flag

/-- Replace all 16 registers. -/
def State.setRegs (s : State) (v : Vector Byte 16) : State := { s with regs := v }

/-- The registers with the bytes of a list laid over `x[0]`, `x[1]`, … (R185). -/
def overlay (regs : Vector Byte 16) (bs : List Byte) : Vector Byte 16 :=
  Vector.ofFn fun r : Fin 16 => bs.getD r.val regs[r.val]

/-- Write the bytes to `x[0]`, `x[1]`, … in order; registers beyond the list are unchanged (R185). -/
def State.setRegsFrom0 (s : State) (bs : List Byte) : State :=
  s.setRegs (overlay s.regs bs)

/-- `x[0]` to `x[X]`, in order (R184). -/
def State.regsUpTo (s : State) (x : Reg) : List Byte := s.regs.toList.take (x.val + 1)

/-- `I <- v` (R27). -/
def State.setIndex (s : State) (v : Word) : State := { s with index := v }

/-- `pc <- t`, all 16 bits, odd or even (R29, R30). -/
def State.setPc (s : State) (t : Word) : State := { s with pc := t }

/-- What a skip does: 2 more on the pc, modulo 2^16, with no memory access (R148; UNVERIFIED, log entry
14). -/
def State.skipIf (s : State) (taken : Bool) : State := if taken then s.setPc (s.pc + 2) else s

/-- Replace the call stack. -/
def State.setStack (s : State) (st : List Word) : State := { s with stack := st }

/-- `push(v)`: the new last element is the top (R33); never an overflow (R34, log entry 15). -/
def State.push (s : State) (v : Word) : State := s.setStack (s.stack ++ [v])

/-- `pop()`: the last element and the state without it, nothing on the empty stack (R33). -/
def State.pop (s : State) : Option (Word × State) :=
  match s.stack.getLast? with
  | some v => some (v, s.setStack s.stack.dropLast)
  | none   => none

/-- `DT <- v` (R41). -/
def State.setDelay (s : State) (v : Byte) : State := { s with delay := v }

/-- `ST <- v` (R41). -/
def State.setSound (s : State) (v : Byte) : State := { s with sound := v }

/-- Replace the framebuffer (R38). -/
def State.setFb (s : State) (f : Framebuffer) : State := { s with fb := f }

/-- Replace the keypad snapshot, all 16 flags together (R42, R258). -/
def State.setKeys (s : State) (p : Vector Bool 16) : State := { s with keys := p }

/-- Replace memory. -/
def State.setMem (s : State) (m : Memory) : State := { s with mem := m }

/-- One random byte more has been drawn (log entry 7). -/
def State.countDraw (s : State) : State := { s with draws := s.draws + 1 }

/-- `rand()`: a fresh free byte, and the state that will draw the next one (R171; log entry 7). -/
def State.rand (s : State) : Byte × State :=
  (Config.randomByte s.draws, s.countDraw)

/-! ## Errors

The core has no trap handler: the nearest things to taking an exception are the fatal stop and the
reported no-operation (R253), and there is no return from one (R254); `resetEvent` (Machine/Events.lean)
is the only way out of FATAL (R243). -/

/-- `raise Fatal(cause, info)`: the run ends at once, with no successor state (R126, R243; log entry 9). -/
def raiseFatal (f : Fault) : Host.Outcome State Fault Refusal := .fault f

/-- `diag(cause, info)`: the diagnostic goes to the error output, nothing else changes (R244). -/
def State.report (s : State) (d : Diagnostic) : State := { s with errOut := some d }

/-- A tick that reports nothing leaves the error output empty (D1; log entry 10). -/
def State.clearReport (s : State) : State := { s with errOut := none }

/-- The outcome of an instruction whose memory accesses may be out of bounds. -/
def complete : Except Fault State → Host.Outcome State Fault Refusal
  | .ok s    => .next s
  | .error f => raiseFatal f

/-- The error output's code for a diagnostic (R241, D16). -/
def Diagnostic.code : Diagnostic → Nat
  | .invalidInstruction _ => 1
  | .stackUnderflow       => 2

/-- The error output's code for a fatal error (R241, D16). -/
def Fault.code : Fault → Nat
  | .memOutOfBounds _ => 3

/-! ## Memory accesses -/

/-- The byte at an address, with no bounds check: for statements and for the accesses below. -/
def State.byteAt (s : State) (a : Nat) : Byte := Memory.read s.mem a

/-- `MemRead(a, 1)`: addresses are natural numbers, never masked (R61, R62). -/
def State.memRead (s : State) (a : Nat) : Except Fault Byte :=
  if 4096 ≤ a then .error (.memOutOfBounds a) else .ok (s.byteAt a)

/-- `MemWrite(a, 1, v)` (R61, R62). -/
def State.memWrite (s : State) (a : Nat) (v : Byte) : Except Fault State :=
  if 4096 ≤ a then .error (.memOutOfBounds a) else .ok (s.setMem (Memory.write s.mem a v))

/-- `ReadSlice(a, n)`: the whole range is checked before any byte is returned (R63; UNVERIFIED for the
empty range, log entry 13). -/
def State.readSlice (s : State) (a n : Nat) : Except Fault (List Byte) :=
  if 4096 < a + n then .error (.memOutOfBounds (max a 4096))
  else .ok ((List.range n).map fun k => s.byteAt (a + k))

/-- Read `n` bytes at ascending addresses from `a`, each access checked (R185). -/
def State.loadBytes (s : State) (a : Nat) : Nat → Except Fault (List Byte)
  | 0 => .ok []
  | n + 1 =>
    match s.memRead a with
    | .error f => .error f
    | .ok b =>
      match State.loadBytes s (a + 1) n with
      | .error f => .error f
      | .ok bs   => .ok (b :: bs)

/-- Write the bytes at ascending addresses from `a`, each access checked (R183, R184). -/
def State.storeBytes (s : State) (a : Nat) : List Byte → Except Fault State
  | [] => .ok s
  | b :: bs =>
    match s.memWrite a b with
    | .error f => .error f
    | .ok s'   => State.storeBytes s' (a + 1) bs

end Sys2Proof.Machine
end

