-- ==== Sys2Proof/Machine/Operands.lean ====
section
/-! DEFINITION. The operand forms: zero extension (spec/30_encoding.md R93), the low nibble of a register,
the start coordinates of a draw, effective addresses (spec/43_index_memory.md R186). -/

namespace Sys2Proof.Machine

/-- `zext_16(NNN)` (R93). -/
def immAddr (nnn : Addr12) : Word := nnn.setWidth 16

/-- `zext_16` of a register's byte (R147, R181). -/
def zext16 (v : Byte) : Word := v.setWidth 16

/-- `v & 0x0F` as a number 0 to 15: the key or the glyph a register selects (R182, R220). -/
def lowNibble (v : Byte) : Fin 16 := (v.extractLsb' 0 4).toFin

/-- A register number as a register's value, for the key number of get-key (R222). -/
def keyByte (k : Fin 16) : Byte := BitVec.ofNat 8 k.val

/-- The address an instruction's accesses start at: `I` as a natural number (R62, R186). -/
def State.cursor (s : State) : Nat := s.index.toNat

/-- The start column of a draw, `x[X] mod 64` (R201). -/
def startColumn (v : Byte) : Nat := v.toNat % 64

/-- The start row of a draw, `x[Y] mod 32` (R201). -/
def startRow (v : Byte) : Nat := v.toNat % 32

/-- The hundreds, tens and ones of a byte, each as a byte 0 to 9 (R183). -/
def decimalDigits (v : Byte) : List Byte :=
  [BitVec.ofNat 8 (v.toNat / 100), BitVec.ofNat 8 (v.toNat / 10 % 10), BitVec.ofNat 8 (v.toNat % 10)]

end Sys2Proof.Machine
end

