-- ==== Sys2Proof/Machine/Alu.lean ====
section
/-! DEFINITION. The register load and arithmetic instructions of spec/42_load_alu.md. Every source is read
before any write (spec/40_cycle.md R124). -/

namespace Sys2Proof.Machine

/-- load-imm X,NN (R160). -/
def execLoadImm (x : Reg) (nn : Byte) (s : State) : Host.Outcome State Fault Refusal :=
  .next (s.setReg x nn)

/-- add-imm X,NN (R161): modulo 256, no flag. -/
def execAddImm (x : Reg) (nn : Byte) (s : State) : Host.Outcome State Fault Refusal :=
  .next (s.setReg x (s.reg x + nn))

/-- move X,Y (R162). -/
def execMove (x y : Reg) (s : State) : Host.Outcome State Fault Refusal :=
  .next (s.setReg x (s.reg y))

/-- or X,Y (R163): no flag. -/
def execOr (x y : Reg) (s : State) : Host.Outcome State Fault Refusal :=
  .next (s.setReg x (s.reg x ||| s.reg y))

/-- and X,Y (R164): no flag. -/
def execAnd (x y : Reg) (s : State) : Host.Outcome State Fault Refusal :=
  .next (s.setReg x (s.reg x &&& s.reg y))

/-- xor X,Y (R165): no flag. -/
def execXor (x y : Reg) (s : State) : Host.Outcome State Fault Refusal :=
  .next (s.setReg x (s.reg x ^^^ s.reg y))

/-- add X,Y (R166). -/
def execAdd (x y : Reg) (s : State) : Host.Outcome State Fault Refusal :=
  .next (s.setRegThenFlag x (s.reg x + s.reg y) (carryFlag (s.reg x) (s.reg y)))

/-- sub X,Y (R167). -/
def execSub (x y : Reg) (s : State) : Host.Outcome State Fault Refusal :=
  .next (s.setRegThenFlag x (s.reg x - s.reg y) (noBorrowFlag (s.reg x) (s.reg y)))

/-- subn X,Y (R168). -/
def execSubn (x y : Reg) (s : State) : Host.Outcome State Fault Refusal :=
  .next (s.setRegThenFlag x (s.reg y - s.reg x) (noBorrowFlag (s.reg y) (s.reg x)))

/-- shr X,Y (R169): the source is `x[Y]`. -/
def execShr (x y : Reg) (s : State) : Host.Outcome State Fault Refusal :=
  .next (s.setRegThenFlag x (s.reg y >>> 1) (shiftedOutLow (s.reg y)))

/-- shl X,Y (R170): the source is `x[Y]`. -/
def execShl (x y : Reg) (s : State) : Host.Outcome State Fault Refusal :=
  .next (s.setRegThenFlag x (s.reg y <<< 1) (shiftedOutHigh (s.reg y)))

/-- random X,NN (R171): a fresh free byte, masked. -/
def execRandom (x : Reg) (nn : Byte) (s : State) : Host.Outcome State Fault Refusal :=
  .next (s.rand.2.setReg x (s.rand.1 &&& nn))

end Sys2Proof.Machine
end

