-- ==== Sys2Proof/Machine/Control.lean ====
section
/-! DEFINITION. The control transfer instructions of spec/41_control_transfer.md. The pc of the state given
is already the address of the instruction plus 2 (spec/40_cycle.md R122). -/

namespace Sys2Proof.Machine

/-- return (R140): the empty stack is reported and changes nothing (R248). -/
def execRet (s : State) : Host.Outcome State Fault Refusal :=
  match s.pop with
  | some (v, s') => .next (s'.setPc v)
  | none         => .next (s.report .stackUnderflow)

/-- jump NNN (R141). -/
def execJump (nnn : Addr12) (s : State) : Host.Outcome State Fault Refusal :=
  .next (s.setPc (immAddr nnn))

/-- call NNN (R142). -/
def execCall (nnn : Addr12) (s : State) : Host.Outcome State Fault Refusal :=
  .next ((s.push s.pc).setPc (immAddr nnn))

/-- skip-eq X,NN (R143). -/
def execSkipEq (x : Reg) (nn : Byte) (s : State) : Host.Outcome State Fault Refusal :=
  .next (s.skipIf (s.reg x == nn))

/-- skip-neq X,NN (R144). -/
def execSkipNeq (x : Reg) (nn : Byte) (s : State) : Host.Outcome State Fault Refusal :=
  .next (s.skipIf (s.reg x != nn))

/-- skip-eq-reg X,Y (R145). -/
def execSkipEqReg (x y : Reg) (s : State) : Host.Outcome State Fault Refusal :=
  .next (s.skipIf (s.reg x == s.reg y))

/-- skip-neq-reg X,Y (R146). -/
def execSkipNeqReg (x y : Reg) (s : State) : Host.Outcome State Fault Refusal :=
  .next (s.skipIf (s.reg x != s.reg y))

/-- jump-offset NNN (R147): the offset register is always `x[0]`. -/
def execJumpOffset (nnn : Addr12) (s : State) : Host.Outcome State Fault Refusal :=
  .next (s.setPc (immAddr nnn + zext16 (s.reg 0)))

end Sys2Proof.Machine
end

