-- ==== Sys2Proof/Machine/Display.lean ====
section
/-! DEFINITION. The framebuffer, the sprite rasterizer of spec/44_display.md R202 to R204, and the meanings
of clear-screen and draw. -/

namespace Sys2Proof.Machine

/-- The cell at row `y`, column `x`; outside the grid there is none, read here as unset (R38). -/
def Framebuffer.cell (f : Framebuffer) (y x : Nat) : Bool :=
  if h : y < 32 ∧ x < 64 then f[y][x] else false

/-- Every cell 0 (R200). -/
def Framebuffer.blank : Framebuffer := Vector.replicate 32 (Vector.replicate 64 false)

/-- Exclusive-or one cell with 1 (R202). -/
def Framebuffer.toggle (f : Framebuffer) (y x : Nat) : Framebuffer :=
  if h : y < 32 ∧ x < 64 then f.set y (f[y].set x (!f[y][x])) else f

/-- A draw in progress: the framebuffer, and whether a cell has gone from set to unset (R204). -/
structure Canvas where
  fb        : Framebuffer
  collision : Bool
  deriving DecidableEq, Repr

/-- One sprite bit at row `py`, column `px`: a cell below or right of the grid is dropped, a sprite bit of
0 leaves its cell alone (R202, R203). -/
def Canvas.plot (c : Canvas) (py px : Nat) (bit : Bool) : Canvas :=
  if py < 32 ∧ px < 64 ∧ bit = true then
    ⟨Framebuffer.toggle c.fb py px, c.collision || Framebuffer.cell c.fb py px⟩
  else c

/-- The bit of a sprite byte that falls `k` columns right of the start, the most significant bit first
(R202). -/
def spriteBit (b : Byte) (k : Nat) : Bool := decide (k < 8) && b.getLsbD (7 - k)

/-- One sprite row: its 8 bits from column `vx` on (R202). -/
def Canvas.plotRow (c : Canvas) (py vx : Nat) (b : Byte) : Canvas :=
  (List.range 8).foldl (fun acc k => acc.plot py (vx + k) (spriteBit b k)) c

/-- The sprite's rows from row `py` on, downward (R202). -/
def Canvas.plotRows (c : Canvas) (py vx : Nat) : List Byte → Canvas
  | [] => c
  | b :: bs => (c.plotRow py vx b).plotRows (py + 1) vx bs

/-- `Draw(vx, vy, s)` of R202: the new framebuffer and the collision bit of the whole draw. -/
def drawSprite (f : Framebuffer) (vx vy : Nat) (sprite : List Byte) : Canvas :=
  (Canvas.mk f false).plotRows vy vx sprite

/-- clear-screen (R200). -/
def execClearScreen (s : State) : Host.Outcome State Fault Refusal :=
  .next (s.setFb Framebuffer.blank)

/-- draw X,Y,N (R201): the sprite is fetched whole before any cell changes, the flag is written last. -/
def execDraw (x y : Reg) (n : Nibble) (s : State) : Host.Outcome State Fault Refusal :=
  match s.readSlice s.cursor n.toNat with
  | .error f => raiseFatal f
  | .ok sprite =>
    let c := drawSprite s.fb (startColumn (s.reg x)) (startRow (s.reg y)) sprite
    .next ((s.setFb c.fb).setReg flagReg (flagByte c.collision))

end Sys2Proof.Machine
end

