-- ==== Sys2Proof/Machine/IndexMemory.lean ====
section
/-! DEFINITION. The index register and memory instructions of spec/43_index_memory.md. None moves `I` as
part of an access (R186; UNVERIFIED, log entry 16). -/

namespace Sys2Proof.Machine

/-- load-index NNN (R180). -/
def execLoadIndex (nnn : Addr12) (s : State) : Host.Outcome State Fault Refusal :=
  .next (s.setIndex (immAddr nnn))

/-- add-index X (R181): modulo 2^16, no flag. -/
def execAddIndex (x : Reg) (s : State) : Host.Outcome State Fault Refusal :=
  .next (s.setIndex (s.index + zext16 (s.reg x)))

/-- font-address X (R182): the low nibble of `x[X]` selects the glyph. -/
def execFontAddress (x : Reg) (s : State) : Host.Outcome State Fault Refusal :=
  .next (s.setIndex (BitVec.ofNat 16 (fontGlyphAddress (lowNibble (s.reg x)))))

/-- bcd X (R183). -/
def execBcd (x : Reg) (s : State) : Host.Outcome State Fault Refusal :=
  complete (s.storeBytes s.cursor (decimalDigits (s.reg x)))

/-- store-regs X (R184). -/
def execStoreRegs (x : Reg) (s : State) : Host.Outcome State Fault Refusal :=
  complete (s.storeBytes s.cursor (s.regsUpTo x))

/-- load-regs X (R185): every byte is read before any register is written. -/
def execLoadRegs (x : Reg) (s : State) : Host.Outcome State Fault Refusal :=
  complete ((s.loadBytes s.cursor (x.val + 1)).map s.setRegsFrom0)

end Sys2Proof.Machine
end

