-- ==== Sys2Proof/Machine/KeypadTimers.lean ====
section
/-! DEFINITION. The keypad and timer instructions of spec/45_keypad_timers.md. -/

namespace Sys2Proof.Machine

/-- The keypad flag the low nibble of a register's value selects (R220). -/
def State.keyPressed (s : State) (v : Byte) : Bool := s.keys[(lowNibble v).val]

/-- The pressed key with the lowest index, if a key is pressed (R222). -/
def State.firstKey (s : State) : Option (Fin 16) :=
  (List.finRange 16).find? fun k => s.keys[k.val]

/-- skip-key-pressed X (R220). -/
def execSkipKeyPressed (x : Reg) (s : State) : Host.Outcome State Fault Refusal :=
  .next (s.skipIf (s.keyPressed (s.reg x)))

/-- skip-key-not-pressed X (R221). -/
def execSkipKeyNotPressed (x : Reg) (s : State) : Host.Outcome State Fault Refusal :=
  .next (s.skipIf (!s.keyPressed (s.reg x)))

/-- get-key X (R222): with no key pressed the pc goes back by 2 and nothing else changes. -/
def execGetKey (x : Reg) (s : State) : Host.Outcome State Fault Refusal :=
  match s.firstKey with
  | some k => .next (s.setReg x (keyByte k))
  | none   => .next (s.setPc (s.pc - 2))

/-- load-delay X (R223). -/
def execLoadDelay (x : Reg) (s : State) : Host.Outcome State Fault Refusal :=
  .next (s.setReg x s.delay)

/-- set-delay X (R224). -/
def execSetDelay (x : Reg) (s : State) : Host.Outcome State Fault Refusal :=
  .next (s.setDelay (s.reg x))

/-- set-sound X (R225). -/
def execSetSound (x : Reg) (s : State) : Host.Outcome State Fault Refusal :=
  .next (s.setSound (s.reg x))

end Sys2Proof.Machine
end

