-- ==== Sys2Proof/Machine/Events.lean ====
section
/-! DEFINITION. The events of the host and of the timer unit: reset (spec/70_reset_and_hazards.md R280),
load_program (spec/20_memory.md R71, R72), tick_timers and set_keys (spec/60_exceptions.md R255, R258).
`tick` is in Machine/Tick.lean. -/

namespace Sys2Proof.Machine

/-- The `reset` event: every piece of the core's state at its reset value (R280), from any run state
(R282). The model's own count of draws and list of events to come are kept, so that the random bytes
after a reset are fresh ones (log entries 7, 8). -/
def resetEvent (s : State) : State :=
  { State.reset with draws := s.draws, schedule := s.schedule }

/-- Write the bytes at ascending addresses from `a`, for a range inside the address space. -/
def Memory.writeAll (m : Memory) (a : Nat) : List Byte → Memory
  | [] => m
  | b :: bs => Memory.writeAll (Memory.write m a b) (a + 1) bs

/-- `load_program(b)`: the first 3584 bytes go to 0x200 and up, the rest are dropped (R71). Once a tick
has happened since reset the event has no step (R72; log entry 11). -/
def loadProgram (image : List Byte) (s : State) : Host.Outcome State Fault Refusal :=
  if s.ticked then .refused .loadAfterTick
  else .next (s.setMem (Memory.writeAll s.mem 0x200 (image.take 3584)))

/-- A timer's countdown: minus 1 while above 0, never below 0 (R41, R255). -/
def countDown (v : Byte) : Byte := if v.toNat > 0 then v - 1 else v

/-- The `tick_timers` event (R255); nothing in FATAL (R127). -/
def tickTimers (s : State) : State :=
  match s.run with
  | .fatal   => s
  | .running => (s.setDelay (countDown s.delay)).setSound (countDown s.sound)

/-- The `set_keys` event (R258); nothing in FATAL (R127). -/
def setKeysEvent (pressed : Vector Bool 16) (s : State) : State :=
  match s.run with
  | .fatal   => s
  | .running => s.setKeys pressed

end Sys2Proof.Machine
end

