-- ==== Sys2Proof/WellFormed.lean ====
section
/-! DEFINITION. The range checks of an instruction's operands (spec/30_encoding.md R91, R93). Each
operand's type is exactly its field's width, so `Instr.wellFormed` holds of every instruction; the
checks are stated on plain numbers, where a value out of range can be written and is refused. -/

namespace Sys2Proof

/-- A register number fits the 4-bit fields `X` and `Y` (R21). -/
def regInRange (r : Nat) : Bool := decide (r < 16)

/-- An immediate fits a field of `width` bits (R93): 4 for `N`, 8 for `NN`, 12 for `NNN`. -/
def immInRange (width v : Nat) : Bool := decide (v < 2 ^ width)

/-- Every operand of the instruction fits its field (R92, R93). -/
def Instr.wellFormed : Instr → Bool
  | .clearScreen | .ret => true
  | .jump nnn | .call nnn | .loadIndex nnn | .jumpOffset nnn => immInRange 12 nnn.toNat
  | .skipEq x nn | .skipNeq x nn | .loadImm x nn | .addImm x nn | .random x nn =>
    regInRange x.val && immInRange 8 nn.toNat
  | .skipEqReg x y | .move x y | .or x y | .and x y | .xor x y | .add x y | .sub x y | .subn x y
  | .shr x y | .shl x y | .skipNeqReg x y => regInRange x.val && regInRange y.val
  | .draw x y n => regInRange x.val && regInRange y.val && immInRange 4 n.toNat
  | .skipKeyPressed x | .skipKeyNotPressed x | .loadDelay x | .setDelay x | .setSound x
  | .addIndex x | .getKey x | .fontAddress x | .bcd x | .storeRegs x | .loadRegs x =>
    regInRange x.val

end Sys2Proof
end

