-- ==== Sys2Proof/Decode.lean ====
section
/-! DEFINITION. The decoder and the encoder of spec/30_encoding.md: the fields of R91, the opcode map
of R94 as a list of rows, `decodeWord` (R123), byte order (R64), and the encoder. -/

namespace Sys2Proof

/-- `w[15:12]`, the first nibble (R91). -/
def fieldOp (w : Word) : Nibble := w.extractLsb' 12 4

/-- `X = w[11:8]` (R91). -/
def fieldX (w : Word) : Nibble := w.extractLsb' 8 4

/-- `Y = w[7:4]` (R91). -/
def fieldY (w : Word) : Nibble := w.extractLsb' 4 4

/-- `N = w[3:0]` (R91). -/
def fieldN (w : Word) : Nibble := w.extractLsb' 0 4

/-- `NN = w[7:0]`, which is `Y ++ N` (R91). -/
def fieldNN (w : Word) : Byte := w.extractLsb' 0 8

/-- `NNN = w[11:0]`, which is `X ++ Y ++ N` (R91). -/
def fieldNNN (w : Word) : Addr12 := w.extractLsb' 0 12

/-- The register the field `X` names (R93). -/
def regX (w : Word) : Reg := (fieldX w).toFin

/-- The register the field `Y` names (R93). -/
def regY (w : Word) : Reg := (fieldY w).toFin

/-- A register number as the 4 bits of its field. -/
def regBits (r : Reg) : Nibble := BitVec.ofFin r

/-- One row of the opcode map: the word `w` selects the row iff `w & mask = bits` (R94). -/
structure OpcodeRow where
  mnemonic : String
  mask     : Word
  bits     : Word
  build    : Word → Instr

/-- The word selects the row (R94). -/
def OpcodeRow.selects (r : OpcodeRow) (w : Word) : Bool := w &&& r.mask == r.bits

/-- The opcode map, rows 1 to 18 of R94. The bit patterns of all but `00E0`, `6XNN`, `FX29`, `DXYN`
are the spec's own general knowledge (UNVERIFIED, log entry 4). -/
def opcodeRowsLow : List OpcodeRow := [
  ⟨"clear-screen", 0xFFFF#16, 0x00E0#16, fun _ => .clearScreen⟩,
  ⟨"return",       0xFFFF#16, 0x00EE#16, fun _ => .ret⟩,
  ⟨"jump",         0xF000#16, 0x1000#16, fun w => .jump (fieldNNN w)⟩,
  ⟨"call",         0xF000#16, 0x2000#16, fun w => .call (fieldNNN w)⟩,
  ⟨"skip-eq",      0xF000#16, 0x3000#16, fun w => .skipEq (regX w) (fieldNN w)⟩,
  ⟨"skip-neq",     0xF000#16, 0x4000#16, fun w => .skipNeq (regX w) (fieldNN w)⟩,
  ⟨"skip-eq-reg",  0xF00F#16, 0x5000#16, fun w => .skipEqReg (regX w) (regY w)⟩,
  ⟨"load-imm",     0xF000#16, 0x6000#16, fun w => .loadImm (regX w) (fieldNN w)⟩,
  ⟨"add-imm",      0xF000#16, 0x7000#16, fun w => .addImm (regX w) (fieldNN w)⟩,
  ⟨"move",         0xF00F#16, 0x8000#16, fun w => .move (regX w) (regY w)⟩,
  ⟨"or",           0xF00F#16, 0x8001#16, fun w => .or (regX w) (regY w)⟩,
  ⟨"and",          0xF00F#16, 0x8002#16, fun w => .and (regX w) (regY w)⟩,
  ⟨"xor",          0xF00F#16, 0x8003#16, fun w => .xor (regX w) (regY w)⟩,
  ⟨"add",          0xF00F#16, 0x8004#16, fun w => .add (regX w) (regY w)⟩,
  ⟨"sub",          0xF00F#16, 0x8005#16, fun w => .sub (regX w) (regY w)⟩,
  ⟨"subn",         0xF00F#16, 0x8007#16, fun w => .subn (regX w) (regY w)⟩,
  ⟨"shr",          0xF00F#16, 0x8006#16, fun w => .shr (regX w) (regY w)⟩,
  ⟨"shl",          0xF00F#16, 0x800E#16, fun w => .shl (regX w) (regY w)⟩]

/-- The opcode map, rows 19 to 34 of R94. -/
def opcodeRowsHigh : List OpcodeRow := [
  ⟨"skip-neq-reg",         0xF00F#16, 0x9000#16, fun w => .skipNeqReg (regX w) (regY w)⟩,
  ⟨"load-index",           0xF000#16, 0xA000#16, fun w => .loadIndex (fieldNNN w)⟩,
  ⟨"jump-offset",          0xF000#16, 0xB000#16, fun w => .jumpOffset (fieldNNN w)⟩,
  ⟨"random",               0xF000#16, 0xC000#16, fun w => .random (regX w) (fieldNN w)⟩,
  ⟨"draw",                 0xF000#16, 0xD000#16, fun w => .draw (regX w) (regY w) (fieldN w)⟩,
  ⟨"skip-key-pressed",     0xF0FF#16, 0xE09E#16, fun w => .skipKeyPressed (regX w)⟩,
  ⟨"skip-key-not-pressed", 0xF0FF#16, 0xE0A1#16, fun w => .skipKeyNotPressed (regX w)⟩,
  ⟨"load-delay",           0xF0FF#16, 0xF007#16, fun w => .loadDelay (regX w)⟩,
  ⟨"set-delay",            0xF0FF#16, 0xF015#16, fun w => .setDelay (regX w)⟩,
  ⟨"set-sound",            0xF0FF#16, 0xF018#16, fun w => .setSound (regX w)⟩,
  ⟨"add-index",            0xF0FF#16, 0xF01E#16, fun w => .addIndex (regX w)⟩,
  ⟨"get-key",              0xF0FF#16, 0xF00A#16, fun w => .getKey (regX w)⟩,
  ⟨"font-address",         0xF0FF#16, 0xF029#16, fun w => .fontAddress (regX w)⟩,
  ⟨"bcd",                  0xF0FF#16, 0xF033#16, fun w => .bcd (regX w)⟩,
  ⟨"store-regs",           0xF0FF#16, 0xF055#16, fun w => .storeRegs (regX w)⟩,
  ⟨"load-regs",            0xF0FF#16, 0xF065#16, fun w => .loadRegs (regX w)⟩]

/-- The whole opcode map of R94, in the order of its table. -/
def opcodeRows : List OpcodeRow := opcodeRowsLow ++ opcodeRowsHigh

/-- `Decode(w)` of R123: the row the word selects with its fields cut out, `none` where no row fits
(R97, strict matching: UNVERIFIED, log entry 5). Total on all 65536 words. -/
def decodeWord (w : Word) : Option Instr :=
  (opcodeRows.find? (fun r => r.selects w)).map (fun r => r.build w)

/-- The two bytes at ascending addresses read as one word, the first in the high bits (R64). -/
def wordOfBytes (b0 b1 : Byte) : Word := b0 ++ b1

/-- The byte of the word that lies at the lower address (R64). -/
def highByte (w : Word) : Byte := w.extractLsb' 8 8

/-- The byte of the word that lies at the higher address (R64). -/
def lowByte (w : Word) : Byte := w.extractLsb' 0 8

/-- Why bytes are no instruction. -/
inductive DecodeError where
  /-- Fewer than the two bytes every instruction has (R90). -/
  | truncated
  /-- The word matches no row of the opcode map (R97). -/
  | invalidInstruction (w : Word)
  deriving DecidableEq, Repr

/-- Decode the instruction that stands first in a list of bytes, with the bytes after it (R90, R123). -/
def decode : List Byte → Except DecodeError (Instr × List Byte)
  | b0 :: b1 :: rest =>
    match decodeWord (wordOfBytes b0 b1) with
    | some i => .ok (i, rest)
    | none   => .error (.invalidInstruction (wordOfBytes b0 b1))
  | _ => .error .truncated

/-- The word of an instruction, written from the `Pattern` column of R94: four nibbles, first nibble in
the high bits. -/
def encode : Instr → Word
  | .clearScreen         => 0x00E0#16
  | .ret                 => 0x00EE#16
  | .jump nnn            => 0x1#4 ++ nnn
  | .call nnn            => 0x2#4 ++ nnn
  | .skipEq x nn         => 0x3#4 ++ regBits x ++ nn
  | .skipNeq x nn        => 0x4#4 ++ regBits x ++ nn
  | .skipEqReg x y       => 0x5#4 ++ regBits x ++ regBits y ++ 0x0#4
  | .loadImm x nn        => 0x6#4 ++ regBits x ++ nn
  | .addImm x nn         => 0x7#4 ++ regBits x ++ nn
  | .move x y            => 0x8#4 ++ regBits x ++ regBits y ++ 0x0#4
  | .or x y              => 0x8#4 ++ regBits x ++ regBits y ++ 0x1#4
  | .and x y             => 0x8#4 ++ regBits x ++ regBits y ++ 0x2#4
  | .xor x y             => 0x8#4 ++ regBits x ++ regBits y ++ 0x3#4
  | .add x y             => 0x8#4 ++ regBits x ++ regBits y ++ 0x4#4
  | .sub x y             => 0x8#4 ++ regBits x ++ regBits y ++ 0x5#4
  | .subn x y            => 0x8#4 ++ regBits x ++ regBits y ++ 0x7#4
  | .shr x y             => 0x8#4 ++ regBits x ++ regBits y ++ 0x6#4
  | .shl x y             => 0x8#4 ++ regBits x ++ regBits y ++ 0xE#4
  | .skipNeqReg x y      => 0x9#4 ++ regBits x ++ regBits y ++ 0x0#4
  | .loadIndex nnn       => 0xA#4 ++ nnn
  | .jumpOffset nnn      => 0xB#4 ++ nnn
  | .random x nn         => 0xC#4 ++ regBits x ++ nn
  | .draw x y n          => 0xD#4 ++ regBits x ++ regBits y ++ n
  | .skipKeyPressed x    => 0xE#4 ++ regBits x ++ 0x9E#8
  | .skipKeyNotPressed x => 0xE#4 ++ regBits x ++ 0xA1#8
  | .loadDelay x         => 0xF#4 ++ regBits x ++ 0x07#8
  | .setDelay x          => 0xF#4 ++ regBits x ++ 0x15#8
  | .setSound x          => 0xF#4 ++ regBits x ++ 0x18#8
  | .addIndex x          => 0xF#4 ++ regBits x ++ 0x1E#8
  | .getKey x            => 0xF#4 ++ regBits x ++ 0x0A#8
  | .fontAddress x       => 0xF#4 ++ regBits x ++ 0x29#8
  | .bcd x               => 0xF#4 ++ regBits x ++ 0x33#8
  | .storeRegs x         => 0xF#4 ++ regBits x ++ 0x55#8
  | .loadRegs x          => 0xF#4 ++ regBits x ++ 0x65#8

/-- The instruction's two bytes in ascending address order (R64, R90). -/
def encodeBytes (i : Instr) : List Byte := [highByte (encode i), lowByte (encode i)]

/-- The instruction the decoder reads from an instruction whose bits are `w`, bit 0 the least
significant bit of the word, every bit above `nbits` zero: laid out as two bytes, high byte first. -/
def decodeTableWord (nbits w : Nat) : Option Instr :=
  let v : Word := BitVec.ofNat 16 (w % 2 ^ nbits)
  match decode [highByte v, lowByte v] with
  | .ok (i, _) => some i
  | .error _   => none

end Sys2Proof
end

