-- ==== Sys2Proof/Machine/Fetch.lean ====
section
/-! DEFINITION. Instruction fetch (spec/40_cycle.md R121, R122) and placing a word where the next fetch
reads. -/

namespace Sys2Proof.Machine

/-- Fetch: the byte at pc, then the byte at pc + 1, each bounds checked, big-endian (R64, R121). The
address pc + 1 is a natural number: nothing wraps (R62). -/
def State.fetchWord (s : State) : Except Fault Word :=
  match s.memRead s.pc.toNat with
  | .error f => .error f
  | .ok b0 =>
    match s.memRead (s.pc.toNat + 1) with
    | .error f => .error f
    | .ok b1   => .ok (wordOfBytes b0 b1)

/-- What fetch does to the state before execute: the pc advances by 2 modulo 2^16 (R29, R122); the error
output and the mark that a tick has happened are the model's own (log entries 10, 11). -/
def State.advance (s : State) : State :=
  { s with pc := s.pc + 2, errOut := none, ticked := true }

/-- Store the word's two bytes at address `a`, the high byte first (R64), wherever that is in the address
space. -/
def State.placeWord (s : State) (a : Nat) (w : Word) : State :=
  s.setMem (Memory.write (Memory.write s.mem a (highByte w)) (a + 1) (lowByte w))

/-- The state whose next event is a tick that can fetch: running, ticks alone scheduled, and
the pc where it is, or at the reset pc where no two bytes can be fetched from it. -/
def State.readyToFetch (s : State) : State :=
  { s with
    run := .running
    schedule := .ticks
    pc := if 4094 < s.pc.toNat then 0x0200#16 else s.pc }

/-- The word placed where the next step fetches (log entry 20). -/
def State.placeNext (s : State) (w : Word) : State :=
  s.readyToFetch.placeWord s.readyToFetch.pc.toNat w

end Sys2Proof.Machine
end

