-- ==== Sys2Proof/Machine/Tick.lean ====
section
/-! DEFINITION. The `tick` event (spec/40_cycle.md R120) and the five events as one function
(spec/00_scope.md R7). -/

namespace Sys2Proof.Machine

/-- Decode and execute a fetched word in the state fetch has advanced: an unmatched word is reported and
changes nothing else (R123 to R125). -/
def runWord (w : Word) (s : State) : Host.Outcome State Fault Refusal :=
  match decodeWord w with
  | some i => exec i s
  | none   => .next (s.report (.invalidInstruction w))

/-- The `tick` event: fetch, pc advance, decode, execute (R120). In FATAL it does nothing and reports
nothing (R127): the error output is that of the latest tick, so it is cleared (log entry 10). -/
def tick (s : State) : Host.Outcome State Fault Refusal :=
  match s.run with
  | .fatal => .next s.clearReport
  | .running =>
    match s.fetchWord with
    | .error f => raiseFatal f
    | .ok w    => runWord w s.advance

/-- One event (R7). -/
def apply (e : Event) (s : State) : Host.Outcome State Fault Refusal :=
  match e with
  | .reset             => .next (resetEvent s)
  | .loadProgram image => loadProgram image s
  | .tick              => tick s
  | .tickTimers        => .next (tickTimers s)
  | .setKeys pressed   => .next (setKeysEvent pressed s)

/-- The event that comes next, and the events after it (R8, D2; log entry 8). -/
def nextInSchedule : Schedule → Event × Schedule
  | .ticks       => (.tick, .ticks)
  | .free n      => (Config.environmentEvent n, .free (n + 1))
  | .cons e rest => (e, rest)

/-- The event that comes next, and the state with that event taken from the schedule. -/
def nextEvent (s : State) : Event × State :=
  ((nextInSchedule s.schedule).1, { s with schedule := (nextInSchedule s.schedule).2 })

/-- A schedule that begins with the events of a list. -/
def scheduleFirst (es : List Event) (rest : Schedule) : Schedule := es.foldr Schedule.cons rest

end Sys2Proof.Machine
end

