-- ==== Sys2Proof/Machine/Step.lean ====
section
/-! DEFINITION. The step of the machine: one event (spec/00_scope.md R7, R8), and placing a word where the
next step fetches. -/

namespace Sys2Proof.Machine

/-- One step: the next event of the schedule. -/
def step (s : State) : Host.Outcome State Fault Refusal :=
  apply (nextEvent s).1 (nextEvent s).2

/-- `s` with the instruction whose bits are `w` stored where step fetches its next instruction, every bit
above `nbits` zero (log entry 20). -/
def State.withFetchWord (s : State) (nbits w : Nat) : State :=
  s.placeNext (BitVec.ofNat 16 (w % 2 ^ nbits))

end Sys2Proof.Machine
end

