-- ==== Sys2Proof/Machine/Outputs.lean ====
section
/-! DEFINITION. What the host may read of the core between two events (spec/60_exceptions.md R261, D1). -/

namespace Sys2Proof.Machine

/-- The core's outputs: the framebuffer, the sound timer, the run state, and the error output. -/
structure HostView where
  fb     : Framebuffer
  sound  : Byte
  run    : RunState
  errOut : Option Diagnostic
  deriving DecidableEq, Repr

/-- The outputs in a state; reading them changes nothing (R261). -/
def hostView (s : State) : HostView := ⟨s.fb, s.sound, s.run, s.errOut⟩

/-- The code on the error output after an event: 0 where nothing was reported (R241, D16). -/
def errorCode : Host.Outcome State Fault Refusal → Nat
  | .next s    => match s.errOut with
    | some d => d.code
    | none   => 0
  | .fault f   => f.code
  | .refused _ => 0

end Sys2Proof.Machine
end

