-- ==== Sys2Proof/Safety.lean ====
section
/-! DEFINITION. The terms claims are stated in: what an instruction may change, when its memory accesses are
in bounds, the sprite cell by cell, invariants, the end of a run. -/

namespace Sys2Proof.Machine

/-! ## Outcomes -/

/-- Apply a function to the next state of an outcome, if it has one. -/
def mapNext (f : State → State) : Host.Outcome State Fault Refusal → Host.Outcome State Fault Refusal
  | .next t    => .next (f t)
  | .fault r   => .fault r
  | .refused r => .refused r

/-- The outcome is a fault. -/
def Faults (o : Host.Outcome State Fault Refusal) : Prop := ∃ f, o = .fault f

/-! ## Frames -/

/-- `t` is `s` but for the general registers, and of those only the ones `touched` names may differ. -/
def OnlyRegs (touched : Reg → Prop) (s t : State) : Prop :=
  t = { s with regs := t.regs } ∧ ∀ r, ¬ touched r → t.reg r = s.reg r

/-- `t` is `s` but for the bytes of memory from address `a` on, `n` of them. -/
def OnlyBytes (a n : Nat) (s t : State) : Prop :=
  t = { s with mem := t.mem } ∧ ∀ c, ¬ (a ≤ c ∧ c < a + n) → t.byteAt c = s.byteAt c

/-- The register an instruction names as its destination, and the flag register where the instruction
writes it as a side effect (spec/10_state.md R23, R24). -/
def writesReg (i : Instr) (r : Reg) : Prop :=
  match i with
  | .loadImm x _ | .addImm x _ | .move x _ | .or x _ | .and x _ | .xor x _ | .random x _
  | .loadDelay x | .getKey x => r = x
  | .add x _ | .sub x _ | .subn x _ | .shr x _ | .shl x _ => r = x ∨ r = flagReg
  | .draw _ _ _ => r = flagReg
  | .loadRegs x => r ≤ x
  | .clearScreen | .ret | .jump _ | .call _ | .skipEq _ _ | .skipNeq _ _ | .skipEqReg _ _
  | .skipNeqReg _ _ | .loadIndex _ | .jumpOffset _ | .skipKeyPressed _ | .skipKeyNotPressed _
  | .setDelay _ | .setSound _ | .addIndex _ | .fontAddress _ | .bcd _ | .storeRegs _ => False

/-- The registers an instruction reads: those its fields name as sources, `x[0]` for jump-offset, and `x[0]`
to `x[X]` for store-regs (spec/10_state.md R25,
spec/41_control_transfer.md R147, spec/43_index_memory.md R184). -/
def readsReg (i : Instr) (r : Reg) : Prop :=
  match i with
  | .skipEq x _ | .skipNeq x _ | .addImm x _ | .skipKeyPressed x | .skipKeyNotPressed x | .setDelay x
  | .setSound x | .addIndex x | .fontAddress x | .bcd x => r = x
  | .skipEqReg x y | .skipNeqReg x y | .or x y | .and x y | .xor x y | .add x y | .sub x y | .subn x y
  | .draw x y _ => r = x ∨ r = y
  | .move _ y | .shr _ y | .shl _ y => r = y
  | .jumpOffset _ => r = 0
  | .storeRegs x => r ≤ x
  | .clearScreen | .ret | .jump _ | .call _ | .loadImm _ _ | .loadIndex _ | .random _ _ | .loadDelay _
  | .getKey _ | .loadRegs _ => False

/-- The instructions that do more to the pc than fetch did (spec/10_state.md R31). -/
def changesPc (i : Instr) : Bool :=
  match i with
  | .ret | .jump _ | .call _ | .jumpOffset _ | .skipEq _ _ | .skipNeq _ _ | .skipEqReg _ _
  | .skipNeqReg _ _ | .skipKeyPressed _ | .skipKeyNotPressed _ | .getKey _ => true
  | .clearScreen | .loadImm _ _ | .addImm _ _ | .move _ _ | .or _ _ | .and _ _ | .xor _ _ | .add _ _
  | .sub _ _ | .subn _ _ | .shr _ _ | .shl _ _ | .loadIndex _ | .random _ _ | .draw _ _ _
  | .loadDelay _ | .setDelay _ | .setSound _ | .addIndex _ | .fontAddress _ | .bcd _ | .storeRegs _
  | .loadRegs _ => false

/-- The six skips (spec/41_control_transfer.md R148). -/
def isSkip (i : Instr) : Bool :=
  match i with
  | .skipEq _ _ | .skipNeq _ _ | .skipEqReg _ _ | .skipNeqReg _ _ | .skipKeyPressed _
  | .skipKeyNotPressed _ => true
  | .clearScreen | .ret | .jump _ | .call _ | .loadImm _ _ | .addImm _ _ | .move _ _ | .or _ _ | .and _ _
  | .xor _ _ | .add _ _ | .sub _ _ | .subn _ _ | .shr _ _ | .shl _ _ | .loadIndex _ | .jumpOffset _
  | .random _ _ | .draw _ _ _ | .loadDelay _ | .setDelay _ | .setSound _ | .addIndex _ | .getKey _
  | .fontAddress _ | .bcd _ | .storeRegs _ | .loadRegs _ => false

/-- The instructions that reach memory beyond their own fetch (spec/20_memory.md R68). -/
def reachesMemory (i : Instr) : Bool :=
  match i with
  | .draw _ _ _ | .bcd _ | .storeRegs _ | .loadRegs _ => true
  | .clearScreen | .ret | .jump _ | .call _ | .skipEq _ _ | .skipNeq _ _ | .skipEqReg _ _
  | .loadImm _ _ | .addImm _ _ | .move _ _ | .or _ _ | .and _ _ | .xor _ _ | .add _ _ | .sub _ _
  | .subn _ _ | .shr _ _ | .shl _ _ | .skipNeqReg _ _ | .loadIndex _ | .jumpOffset _ | .random _ _
  | .skipKeyPressed _ | .skipKeyNotPressed _ | .loadDelay _ | .setDelay _ | .setSound _ | .addIndex _
  | .getKey _ | .fontAddress _ => false

/-! ## Memory accesses in bounds -/

/-- Every access of the instruction is below 4096 (spec/60_exceptions.md R245). -/
def accessesInBounds (i : Instr) (s : State) : Prop :=
  match i with
  | .draw _ _ n => s.cursor + n.toNat ≤ 4096
  | .bcd _ => s.cursor + 2 < 4096
  | .storeRegs x | .loadRegs x => s.cursor + x.val < 4096
  | .clearScreen | .ret | .jump _ | .call _ | .skipEq _ _ | .skipNeq _ _ | .skipEqReg _ _
  | .loadImm _ _ | .addImm _ _ | .move _ _ | .or _ _ | .and _ _ | .xor _ _ | .add _ _ | .sub _ _
  | .subn _ _ | .shr _ _ | .shl _ _ | .skipNeqReg _ _ | .loadIndex _ | .jumpOffset _ | .random _ _
  | .skipKeyPressed _ | .skipKeyNotPressed _ | .loadDelay _ | .setDelay _ | .setSound _ | .addIndex _
  | .getKey _ | .fontAddress _ => True

/-- The next event of the machine is a tick that is not ignored, whatever is scheduled after it. -/
def AboutToTick (s : State) : Prop := s.run = .running ∧ (nextInSchedule s.schedule).1 = .tick

/-- The events that are still to come after the next one. -/
def afterNext (s : State) : Schedule := (nextInSchedule s.schedule).2

/-- The two bytes at pc as a word (spec/20_memory.md R64). -/
def wordAtPc (s : State) : Word := wordOfBytes (s.byteAt s.pc.toNat) (s.byteAt (s.pc.toNat + 1))

/-! ## The sprite, cell by cell (spec/44_display.md R202, R203) -/

/-- The sprite, drawn from column `vx` and row `vy` and clipped at the grid's edges, has a set bit on the
cell at `row`, `col`. -/
def spriteCovers (sprite : List Byte) (vx vy row col : Nat) : Bool :=
  decide (row < 32 ∧ col < 64 ∧ vy ≤ row ∧ row < vy + sprite.length ∧ vx ≤ col)
    && spriteBit (sprite.getD (row - vy) 0) (col - vx)

/-- The sprite of a draw with `n` rows: the bytes at `I` and up (R201). -/
def spriteAt (s : State) (n : Nibble) : List Byte :=
  (List.range n.toNat).map fun k => s.byteAt (s.cursor + k)

/-- The sprite of a draw has a set bit on the cell, the start coordinates taken modulo the grid (R201). -/
def drawCovers (s : State) (x y : Reg) (n : Nibble) (row col : Nat) : Bool :=
  spriteCovers (spriteAt s n) ((s.reg x).toNat % 64) ((s.reg y).toNat % 32) row col

/-! ## Invariants, the end of a run -/

/-- The bound of spec/10_state.md R32, with what makes it inductive: every stacked address was pushed by a
call, so it is at most 4096 (spec/41_control_transfer.md R140). -/
def PcAndStackBounded (s : State) : Prop :=
  s.pc.toNat ≤ 0x10FE ∧ ∀ v ∈ s.stack, v.toNat ≤ 0x1000

/-- The end of a run as D17 offers it: running, and the word at pc is a jump to pc itself. -/
def AtSelfLoop (s : State) : Prop :=
  s.run = .running ∧ s.pc.toNat < 4095 ∧ ∃ nnn, decodeWord (wordAtPc s) = some (.jump nnn) ∧
    s.pc = nnn.setWidth 16

end Sys2Proof.Machine
end

