-- ==== Sys2Proof/Certificates/Slice0/Obligations.lean ====
section
/-! DEFINITION. The statements for the provers, from the numbered rules of spec/. Where a clause rests on a
decision the spec marks as its own, or on the model's own fields, the docstring says so. -/

open Sys2Proof Sys2Proof.Machine

/-! ## Encoding -/

/-- Decoding an encoded instruction gives it back with every operand, as a word and as bytes followed by any
others. The bit patterns of 30 rows are the spec's general knowledge (D8, log entry 4). -/
def Obligations.DecodeEncodeGivesInstructionBack : Prop :=
  ∀ (i : Instr) (rest : List Byte), i.wellFormed = true →
    decodeWord (encode i) = some i ∧ decode (encodeBytes i ++ rest) = .ok (i, rest)

/-- A word that decodes is the word of the instruction it decodes as, and that instruction is well formed
(patterns as above). -/
def Obligations.DecodedWordReencodesToItself : Prop :=
  ∀ (w : Word) (i : Instr), decodeWord w = some i → encode i = w ∧ i.wellFormed = true

/-- R123: the word selects at most one row of the opcode map; the decoder answers that row's instruction,
and none where no row is selected. -/
def Obligations.DecodeAnswersTheUniqueRow : Prop :=
  ∀ w : Word, match opcodeRows.filter (fun r => r.selects w) with
    | []  => decodeWord w = none
    | [r] => decodeWord w = some (r.build w)
    | _   => False

/-- The unmatched words are exactly the table of 30_encoding.md section 3, the strict reading the spec
decides (D9, log entry 5). -/
def Obligations.UnmatchedWordsAreExactlyTheTable : Prop :=
  ∀ w : Word, decodeWord w = none ↔
    (fieldOp w = 0x0#4 ∧ w ≠ 0x00E0#16 ∧ w ≠ 0x00EE#16) ∨
    (fieldOp w = 0x5#4 ∧ fieldN w ≠ 0x0#4) ∨
    (fieldOp w = 0x8#4 ∧ fieldN w ∈ [0x8#4, 0x9#4, 0xA#4, 0xB#4, 0xC#4, 0xD#4, 0xF#4]) ∨
    (fieldOp w = 0x9#4 ∧ fieldN w ≠ 0x0#4) ∨
    (fieldOp w = 0xE#4 ∧ fieldNN w ∉ [0x9E#8, 0xA1#8]) ∨
    (fieldOp w = 0xF#4 ∧
      fieldNN w ∉ [0x07#8, 0x0A#8, 0x15#8, 0x18#8, 0x1E#8, 0x29#8, 0x33#8, 0x55#8, 0x65#8])

/-- The four words the source's scenario fixes (95_test_vectors.md S1), and one word of each of the other
families of first nibbles, 1 to 5, 7 to C and E (D8, log entry 4), decode as the instructions they stand for. -/
def Obligations.ScenarioAndFamilyWordsDecode : Prop :=
  decodeWord 0x00E0#16 = some .clearScreen ∧
  decodeWord 0x6005#16 = some (.loadImm 0 0x05#8) ∧
  decodeWord 0xF029#16 = some (.fontAddress 0) ∧
  decodeWord 0xD005#16 = some (.draw 0 0 0x5#4) ∧
  decodeWord 0x1ABC#16 = some (.jump 0xABC#12) ∧
  decodeWord 0x2300#16 = some (.call 0x300#12) ∧
  decodeWord 0x3105#16 = some (.skipEq 1 0x05#8) ∧
  decodeWord 0x4106#16 = some (.skipNeq 1 0x06#8) ∧
  decodeWord 0x5120#16 = some (.skipEqReg 1 2) ∧
  decodeWord 0x7F03#16 = some (.addImm 15 0x03#8) ∧
  decodeWord 0x8AB5#16 = some (.sub 10 11) ∧
  decodeWord 0x9120#16 = some (.skipNeqReg 1 2) ∧
  decodeWord 0xA123#16 = some (.loadIndex 0x123#12) ∧
  decodeWord 0xB234#16 = some (.jumpOffset 0x234#12) ∧
  decodeWord 0xC10F#16 = some (.random 1 0x0F#8) ∧
  decodeWord 0xE3A1#16 = some (.skipKeyNotPressed 3)

/-! ## Fetch, tick, events -/

/-- R64: the byte at the lower address is `w[15:8]`, the byte at the next address is `w[7:0]`; a loaded image
has the same order. -/
def Obligations.FetchReadsBigEndianPair : Prop :=
  (∀ s : State, s.pc.toNat < 4095 → ∃ w : Word, s.fetchWord = .ok w ∧
    w.extractLsb' 8 8 = s.byteAt s.pc.toNat ∧ w.extractLsb' 0 8 = s.byteAt (s.pc.toNat + 1)) ∧
  (∀ w : Word, ∃ t, loadProgram [highByte w, lowByte w] State.reset = .next t ∧ t.fetchWord = .ok w)

/-- R121: fetch reads the byte at pc, then the byte at pc + 1, each bounds checked; nothing is masked to 12
bits and nothing wraps. -/
def Obligations.FetchOutsideMemoryIsFatal : Prop :=
  ∀ s : State, AboutToTick s →
    (s.pc.toNat ≤ 4094 → s.fetchWord = .ok (wordAtPc s)) ∧
    (s.pc.toNat = 4095 → step s = .fault (.memOutOfBounds 4096)) ∧
    (4096 ≤ s.pc.toNat → step s = .fault (.memOutOfBounds s.pc.toNat))

/-- A step that can fetch runs the instruction the two bytes at pc decode to, in the state with pc advanced
by 2. The error output cleared, the mark of a tick set and the tick taken from the schedule are the model's
own (log entries 8, 10, 11). -/
def Obligations.StepRunsDecodedInstruction : Prop :=
  ∀ (s : State) (i : Instr), AboutToTick s → s.pc.toNat < 4095 →
    decodeWord (wordAtPc s) = some i → i.wellFormed = true →
    step s = exec i { s with pc := s.pc + 2, errOut := none, ticked := true, schedule := afterNext s }

/-- R125: an unmatched word is reported with the word, pc stays advanced by 2, nothing else changes and the
run goes on. Holding the report in `errOut`, the mark `ticked` (free here) and the tick taken from the schedule
are the model's own (log entries 8, 10, 11). -/
def Obligations.UnmatchedWordIsReportedAndSkipped : Prop :=
  ∀ s : State, AboutToTick s → s.pc.toNat < 4095 → decodeWord (wordAtPc s) = none →
    ∃ t, step s = .next t ∧ t.pc = s.pc + 2 ∧ t.errOut = some (.invalidInstruction (wordAtPc s)) ∧
      t.run = .running ∧
      t = { s with pc := t.pc, errOut := t.errOut, ticked := t.ticked, schedule := afterNext s }

/-- A step faults exactly when a tick comes next and its fetch, or an access of the instruction it fetches,
leaves the address space. The empty sprite at `I` above 4096 is the spec's decision (D18, log entry 13). -/
def Obligations.TickFaultsExactlyOutOfBounds : Prop :=
  ∀ s : State, AboutToTick s →
    (Faults (step s) ↔ 4095 ≤ s.pc.toNat ∨
      ∃ i, decodeWord (wordAtPc s) = some i ∧ ¬ accessesInBounds i s)

/-- The only step without a meaning is a program load after the first tick: no instruction and no word is
ever refused (that the load has no step then is the spec's decision D20, log entry 11). -/
def Obligations.StepRefusesExactlyALateLoad : Prop :=
  ∀ (s : State) (r : Refusal), step s = .refused r ↔
    r = .loadAfterTick ∧ s.ticked = true ∧
      ∃ image, (nextInSchedule s.schedule).1 = .loadProgram image

/-- R7, R8: a step is one of the five events, whichever comes next, and runs that event's own operation on the
state without it; any sequence without end can come. The schedule is the model's own (log entry 8): after the
events it lists come ticks for ever, or whatever the environment does. -/
def Obligations.StepServesOldestScheduledEvent : Prop :=
  ∀ s : State,
    (∀ rest, s.schedule = .cons .reset rest →
      step s = .next (resetEvent { s with schedule := rest })) ∧
    (∀ image rest, s.schedule = .cons (.loadProgram image) rest →
      step s = loadProgram image { s with schedule := rest }) ∧
    (∀ rest, s.schedule = .cons .tick rest → step s = tick { s with schedule := rest }) ∧
    (∀ rest, s.schedule = .cons .tickTimers rest →
      step s = .next (tickTimers { s with schedule := rest })) ∧
    (∀ p rest, s.schedule = .cons (.setKeys p) rest →
      step s = .next (setKeysEvent p { s with schedule := rest })) ∧
    (s.schedule = .ticks → step s = tick s) ∧
    (∀ n, s.schedule = .free n →
      step s = step { s with schedule := .cons (Config.environmentEvent n) (.free (n + 1)) })

/-- In FATAL, tick, tick_timers and set_keys do nothing, and reset leads out of it: the spec's decision D10
(log entry 9). The error output of a tick that reports nothing is empty (log entry 10). -/
def Obligations.FatalIgnoresAllButReset : Prop :=
  ∀ (s : State) (p : Vector Bool 16), s.run = .fatal →
    tick s = .next { s with errOut := none } ∧ tickTimers s = s ∧ setKeysEvent p s = s ∧
      (resetEvent s).run = .running

/-- R255: each timer goes down by 1 while above 0 and never below 0; nothing else changes, and in FATAL (the
spec's decision D10, log entry 9) nothing at all. -/
def Obligations.TickTimersCountsBothDown : Prop :=
  ∀ s : State,
    (s.run = .fatal → tickTimers s = s) ∧
    (s.run = .running →
      (tickTimers s).delay.toNat = s.delay.toNat - 1 ∧
      (tickTimers s).sound.toNat = s.sound.toNat - 1 ∧
      tickTimers s = { s with delay := (tickTimers s).delay, sound := (tickTimers s).sound })

/-- Any number of tick_timers events in a row take each timer down by that number, and it stays at 0
(the property of 95_test_vectors.md S9, for every start value). -/
def Obligations.RepeatedTickTimersReachZero : Prop :=
  ∀ (k : Nat) (s : State) (rest : Schedule), s.run = .running →
    s.schedule = scheduleFirst (List.replicate k .tickTimers) rest →
    ∃ t : State, Host.Core.run Sys2Proof.core k s = .next t ∧
      t.delay.toNat = s.delay.toNat - k ∧ t.sound.toNat = s.sound.toNat - k ∧
      t = { s with delay := t.delay, sound := t.sound, schedule := rest }

/-- R258: all 16 flags are replaced together by the ones given, and nothing else changes, in FATAL (the spec's
decision D10, log entry 9) nothing at all. -/
def Obligations.SetKeysReplacesSnapshot : Prop :=
  ∀ (s : State) (p : Vector Bool 16),
    (s.run = .fatal → setKeysEvent p s = s) ∧
    (s.run = .running → setKeysEvent p s = { s with keys := (setKeysEvent p s).keys } ∧
      ∀ k : Fin 16, (setKeysEvent p s).keys[k.val] = p[k.val])

/-- R71: the first 3584 bytes of the image go to 0x200 and up, the rest are dropped, every other byte and
all other state is unchanged. The load is before the first tick and memory in its canonical form. -/
def Obligations.LoadProgramWritesImage : Prop :=
  ∀ (s : State) (b : List Byte), s.ticked = false → Memory.wf s.mem = true →
    ∃ t, loadProgram b s = .next t ∧ t = { s with mem := t.mem } ∧
      ∀ a, t.byteAt a = if 0x200 ≤ a ∧ a < 0x200 + min b.length 3584 then b.getD (a - 0x200) 0
        else s.byteAt a

/-- R281: execution starts at 0x200, the first byte of the program region: after reset and the load of any
image of two bytes or more, the word fetched first is the image's first two bytes. -/
def Obligations.BootStartsAtFirstImageWord : Prop :=
  ∀ (s : State) (b0 b1 : Byte) (rest : List Byte),
    ∃ t, loadProgram (b0 :: b1 :: rest) (resetEvent s) = .next t ∧ t.pc = 0x0200#16 ∧
      t.fetchWord = .ok (wordOfBytes b0 b1)

/-- After a reset event from any state, FATAL included: pc 0x200, display clear, the font in place, and zero
or empty for everything else. pc, display, font and glyph 0 are the source's; the zeros and RUNNING are the
spec's decisions D3, D10 (log entries 3, 9, 12), the other glyphs its general knowledge (log entry 2). -/
def Obligations.ResetRestoresEveryPiece : Prop :=
  ∀ s : State,
    (resetEvent s).pc = 0x0200#16 ∧ (resetEvent s).index = 0 ∧ (resetEvent s).stack = [] ∧
    (resetEvent s).delay = 0 ∧ (resetEvent s).sound = 0 ∧ (resetEvent s).run = .running ∧
    (∀ r, (resetEvent s).reg r = 0) ∧ (∀ k : Fin 16, (resetEvent s).keys[k.val] = false) ∧
    (∀ y x, Framebuffer.cell (resetEvent s).fb y x = false) ∧
    fontBytes.take 5 = [0xF0#8, 0x90#8, 0x90#8, 0x90#8, 0xF0#8] ∧
    (∀ a, (resetEvent s).byteAt a =
      if fontBase ≤ a ∧ a < fontBase + 80 then fontBytes.getD (a - fontBase) 0 else 0)

/-! ## Register load and arithmetic -/

/-- R160, R162: the destination holds the immediate, or the source register's value; nothing else changes. -/
def Obligations.LoadImmAndMoveWriteDestination : Prop :=
  (∀ (x : Reg) (nn : Byte) (s : State), ∃ t, exec (.loadImm x nn) s = .next t ∧
    t.reg x = nn ∧ OnlyRegs (· = x) s t) ∧
  (∀ (x y : Reg) (s : State), ∃ t, exec (.move x y) s = .next t ∧
    t.reg x = s.reg y ∧ OnlyRegs (· = x) s t)

/-- R161: addition modulo 256, no flag; with `X = 15` the sum is an ordinary result. -/
def Obligations.AddImmWrapsWithoutFlag : Prop :=
  ∀ (x : Reg) (nn : Byte) (s : State), ∃ t, exec (.addImm x nn) s = .next t ∧
    (t.reg x).toNat = ((s.reg x).toNat + nn.toNat) % 256 ∧ OnlyRegs (· = x) s t

/-- or, and, xor, bit by bit. That they leave the flag register alone is the spec's decision D25 (log entry
16). -/
def Obligations.LogicalOpsWriteDestinationOnly : Prop :=
  ∀ (x y : Reg) (s : State),
    (∃ t, exec (.or x y) s = .next t ∧ OnlyRegs (· = x) s t ∧
      ∀ k, (t.reg x).getLsbD k = ((s.reg x).getLsbD k || (s.reg y).getLsbD k)) ∧
    (∃ t, exec (.and x y) s = .next t ∧ OnlyRegs (· = x) s t ∧
      ∀ k, (t.reg x).getLsbD k = ((s.reg x).getLsbD k && (s.reg y).getLsbD k)) ∧
    (∃ t, exec (.xor x y) s = .next t ∧ OnlyRegs (· = x) s t ∧
      ∀ k, (t.reg x).getLsbD k = ((s.reg x).getLsbD k ^^ (s.reg y).getLsbD k))

/-- add: the sum modulo 256, and the carry in the flag register, for every choice of X and Y. That with
`X = 15` the flag stands is the spec's decision D4, that sources are read first D5 (log entry 6). -/
def Obligations.AddWritesSumAndCarry : Prop :=
  ∀ (x y : Reg) (s : State), ∃ t, exec (.add x y) s = .next t ∧
    (x ≠ flagReg → (t.reg x).toNat = ((s.reg x).toNat + (s.reg y).toNat) % 256) ∧
    t.reg flagReg = (if (s.reg x).toNat + (s.reg y).toNat > 255 then 1 else 0) ∧
    OnlyRegs (fun r => r = x ∨ r = flagReg) s t

/-- sub and subn: the difference modulo 256, and not-borrow in the flag register, for every choice of X and
Y (order at `X = 15`: D4, D5, log entry 6). -/
def Obligations.SubtractsWriteDifferenceAndNoBorrow : Prop :=
  ∀ (x y : Reg) (s : State),
    (∃ t, exec (.sub x y) s = .next t ∧
      (x ≠ flagReg → (t.reg x).toNat = ((s.reg x).toNat + 256 - (s.reg y).toNat) % 256) ∧
      t.reg flagReg = (if (s.reg x).toNat ≥ (s.reg y).toNat then 1 else 0) ∧
      OnlyRegs (fun r => r = x ∨ r = flagReg) s t) ∧
    (∃ t, exec (.subn x y) s = .next t ∧
      (x ≠ flagReg → (t.reg x).toNat = ((s.reg y).toNat + 256 - (s.reg x).toNat) % 256) ∧
      t.reg flagReg = (if (s.reg y).toNat ≥ (s.reg x).toNat then 1 else 0) ∧
      OnlyRegs (fun r => r = x ∨ r = flagReg) s t)

/-- shr and shl: `x[Y]` halved, or doubled modulo 256, and the bit shifted out in the flag register, for
every choice of X and Y (order at `X = 15`: D4, D5, log entry 6). -/
def Obligations.ShiftsWriteResultAndLostBit : Prop :=
  ∀ (x y : Reg) (s : State),
    (∃ t, exec (.shr x y) s = .next t ∧
      (x ≠ flagReg → (t.reg x).toNat = (s.reg y).toNat / 2) ∧
      (t.reg flagReg).toNat = (s.reg y).toNat % 2 ∧
      OnlyRegs (fun r => r = x ∨ r = flagReg) s t) ∧
    (∃ t, exec (.shl x y) s = .next t ∧
      (x ≠ flagReg → (t.reg x).toNat = (s.reg y).toNat * 2 % 256) ∧
      (t.reg flagReg).toNat = (s.reg y).toNat / 128 ∧
      OnlyRegs (fun r => r = x ∨ r = flagReg) s t)

/-- random: the destination holds the fresh free byte and the mask, whatever that byte is (the spec's
decision D14, log entry 7); the next draw is another byte. -/
def Obligations.RandomMasksAFreeByte : Prop :=
  ∀ (x : Reg) (nn : Byte) (s : State), ∃ t, exec (.random x nn) s = .next t ∧
    (∀ k, (t.reg x).getLsbD k = ((Config.randomByte s.draws).getLsbD k && nn.getLsbD k)) ∧
    t.draws = s.draws + 1 ∧ t = { s with regs := t.regs, draws := t.draws } ∧
    ∀ r, r ≠ x → t.reg r = s.reg r

/-! ## Control transfer -/

/-- R141, R147: pc is NNN, or NNN plus `x[0]` with no reduction and no wrap; nothing else changes. -/
def Obligations.JumpsSetThePc : Prop :=
  ∀ (nnn : Addr12) (s : State),
    (∃ t, exec (.jump nnn) s = .next t ∧ t.pc.toNat = nnn.toNat ∧ t = { s with pc := t.pc }) ∧
    (∃ t, exec (.jumpOffset nnn) s = .next t ∧ t.pc.toNat = nnn.toNat + (s.reg 0).toNat ∧
      t = { s with pc := t.pc })

/-- R142, with the normative unbounded stack (R34): the pc after the call's own fetch becomes the stack's
last element, pc is NNN, nothing else changes. -/
def Obligations.CallPushesReturnAddress : Prop :=
  ∀ (nnn : Addr12) (s : State), ∃ t, exec (.call nnn) s = .next t ∧
    t.stack = s.stack ++ [s.pc] ∧ t.pc.toNat = nnn.toNat ∧
    t = { s with stack := t.stack, pc := t.pc }

/-- R140: return takes the stack's last element into pc, all 16 bits; on the empty stack it reports and
changes nothing else. -/
def Obligations.ReturnPopsOrReports : Prop :=
  ∀ s : State,
    (∀ st v, s.stack = st ++ [v] → exec .ret s = .next { s with stack := st, pc := v }) ∧
    (s.stack = [] → exec .ret s = .next { s with errOut := some .stackUnderflow })

/-- A return in any state with the stack a call left resumes just after that call's own two bytes and leaves
the stack as it was before it (95_test_vectors.md S7). -/
def Obligations.ReturnResumesAfterTheCall : Prop :=
  ∀ (nnn : Addr12) (s u : State), u.stack = s.stack ++ [s.pc] →
    ∃ t v, exec (.call nnn) s = .next t ∧ t.stack = u.stack ∧
      exec .ret u = .next v ∧ v.pc = s.pc ∧ v.stack = s.stack

/-- R143 to R146: a skip adds 2 more to pc, modulo 2^16, exactly when its comparison holds. -/
def Obligations.SkipsOnComparisons : Prop :=
  ∀ (x y : Reg) (nn : Byte) (s : State),
    exec (.skipEq x nn) s = .next { s with pc := if s.reg x = nn then s.pc + 2 else s.pc } ∧
    exec (.skipNeq x nn) s = .next { s with pc := if s.reg x ≠ nn then s.pc + 2 else s.pc } ∧
    exec (.skipEqReg x y) s = .next { s with pc := if s.reg x = s.reg y then s.pc + 2 else s.pc } ∧
    exec (.skipNeqReg x y) s = .next { s with pc := if s.reg x ≠ s.reg y then s.pc + 2 else s.pc }

/-- D17, the spec's offer for the end of a run: in a jump to itself every tick leaves the state unchanged but
for the model's own error output, mark of a tick and schedule. -/
def Obligations.SelfLoopChangesNothing : Prop :=
  ∀ s : State, AtSelfLoop s → AboutToTick s →
    step s = .next { s with errOut := none, ticked := true, schedule := afterNext s } ∧
      AtSelfLoop { s with errOut := none, ticked := true, schedule := afterNext s }

/-! ## Index register and memory -/

/-- R180, R182: `I` is NNN, or the glyph's address for the low nibble of `x[X]`; nothing else changes. -/
def Obligations.LoadIndexAndFontAddressSetIndex : Prop :=
  (∀ (nnn : Addr12) (s : State), ∃ t, exec (.loadIndex nnn) s = .next t ∧
    t.index.toNat = nnn.toNat ∧ t = { s with index := t.index }) ∧
  (∀ (x : Reg) (s : State), ∃ t, exec (.fontAddress x) s = .next t ∧
    t.index.toNat = fontBase + 5 * ((s.reg x).toNat % 16) ∧ t = { s with index := t.index })

/-- add-index: `I` plus `x[X]` modulo 2^16; that no flag changes is the spec's decision D25 (log entry 16). -/
def Obligations.AddIndexWrapsWithoutFlag : Prop :=
  ∀ (x : Reg) (s : State), ∃ t, exec (.addIndex x) s = .next t ∧
    t.index.toNat = (s.index.toNat + (s.reg x).toNat) % 65536 ∧ t = { s with index := t.index }

/-- After font-address, with the font region as reset left it, `I` points at the five bytes of the glyph, and glyph 0
is the one the source gives (10_state.md section 6; other glyphs: log entry 2). -/
def Obligations.FontAddressPointsAtGlyph : Prop :=
  ∀ (x : Reg) (s : State), (∀ k, k < 80 → s.byteAt (fontBase + k) = fontBytes.getD k 0) → ∃ t, exec (.fontAddress x) s = .next t ∧
    (∀ k, k < 5 → t.byteAt (t.cursor + k) = fontBytes.getD (5 * ((s.reg x).toNat % 16) + k) 0) ∧
    ((s.reg x).toNat % 16 = 0 → (List.range 5).map (fun k => t.byteAt (t.cursor + k)) =
      [0xF0#8, 0x90#8, 0x90#8, 0x90#8, 0xF0#8])

/-- bcd: hundreds, tens and ones at `I`, `I + 1`, `I + 2`, every other byte and everything else unchanged,
`I` included (the spec's decisions D24, D29, log entry 16). -/
def Obligations.BcdStoresThreeDigits : Prop :=
  ∀ (x : Reg) (s : State), Memory.wf s.mem = true → s.cursor + 2 < 4096 →
    ∃ t, exec (.bcd x) s = .next t ∧
      (t.byteAt s.cursor).toNat = (s.reg x).toNat / 100 ∧
      (t.byteAt (s.cursor + 1)).toNat = (s.reg x).toNat / 10 % 10 ∧
      (t.byteAt (s.cursor + 2)).toNat = (s.reg x).toNat % 10 ∧
      OnlyBytes s.cursor 3 s t

/-- store-regs: `x[0]` to `x[X]` at `I` and up, every other byte and everything else unchanged, `I` included
(the spec's decision D24, log entry 16). -/
def Obligations.StoreRegsWritesRegistersInOrder : Prop :=
  ∀ (x : Reg) (s : State), Memory.wf s.mem = true → s.cursor + x.val < 4096 →
    ∃ t, exec (.storeRegs x) s = .next t ∧
      (∀ r : Reg, r ≤ x → t.byteAt (s.cursor + r.val) = s.reg r) ∧
      OnlyBytes s.cursor (x.val + 1) s t

/-- load-regs: `x[0]` to `x[X]` from `I` and up, the other registers and everything else unchanged, memory
and `I` included (the spec's decision D24, log entry 16). -/
def Obligations.LoadRegsReadsRegistersInOrder : Prop :=
  ∀ (x : Reg) (s : State), s.cursor + x.val < 4096 →
    ∃ t, exec (.loadRegs x) s = .next t ∧
      (∀ r : Reg, r ≤ x → t.reg r = s.byteAt (s.cursor + r.val)) ∧
      OnlyRegs (· ≤ x) s t

/-- load-regs X straight after store-regs X changes nothing (C10, 95_test_vectors.md S8; D24). -/
def Obligations.LoadAfterStoreChangesNothing : Prop :=
  ∀ (x : Reg) (s : State), Memory.wf s.mem = true → s.cursor + x.val < 4096 →
    ∃ t, exec (.storeRegs x) s = .next t ∧ exec (.loadRegs x) t = .next t

/-- A word stored by store-regs at the pc is the word the very next fetch reads: no cache, no prefetch
(20_memory.md section 6). -/
def Obligations.StoredWordIsFetchedNext : Prop :=
  ∀ (x r q : Reg) (s : State), Memory.wf s.mem = true → s.cursor + x.val < 4096 →
    q ≤ x → q.val = r.val + 1 → s.pc.toNat = s.cursor + r.val →
    ∃ t, exec (.storeRegs x) s = .next t ∧ t.fetchWord = .ok (wordOfBytes (s.reg r) (s.reg q))

/-- Every instruction completes when its accesses are below 4096 and is fatal when one is not; there is no
third case. The address reported is left open, as R63 asks. (Empty sprite above 4096: D18, log entry 13.) -/
def Obligations.InstructionsCompleteExactlyInBounds : Prop :=
  ∀ (i : Instr) (s : State),
    (accessesInBounds i s → ∃ t, exec i s = .next t) ∧
    (¬ accessesInBounds i s → ∃ a, exec i s = .fault (.memOutOfBounds a))

/-! ## Display -/

/-- R200: every cell is 0 afterwards; nothing else changes. -/
def Obligations.ClearScreenUnsetsEveryCell : Prop :=
  ∀ s : State, ∃ t, exec .clearScreen s = .next t ∧
    (∀ y x, Framebuffer.cell t.fb y x = false) ∧ t = { s with fb := t.fb }

/-- R202, R203: a draw is the cell-wise exclusive or of the framebuffer with the sprite clipped at the
right and bottom edges, and its flag is 1 iff some cell was 1 in both; the start coordinates alone wrap. -/
def Obligations.DrawXorsTheClippedSprite : Prop :=
  ∀ (x y : Reg) (n : Nibble) (s : State), s.cursor + n.toNat ≤ 4096 →
    ∃ t, exec (.draw x y n) s = .next t ∧
      (∀ row col, Framebuffer.cell t.fb row col =
        (Framebuffer.cell s.fb row col ^^ drawCovers s x y n row col)) ∧
      ((∃ row col, drawCovers s x y n row col = true ∧ Framebuffer.cell s.fb row col = true) →
        t.reg flagReg = 1) ∧
      ((∀ row col, drawCovers s x y n row col = true → Framebuffer.cell s.fb row col = false) →
        t.reg flagReg = 0) ∧
      (∀ r, r ≠ flagReg → t.reg r = s.reg r) ∧ t = { s with regs := t.regs, fb := t.fb }

/-- The same draw twice restores the framebuffer; from a clear screen the second reports a collision iff the
sprite has a set bit inside the grid (95_test_vectors.md S5, C13). With 15 for X or Y the first draw
overwrites a coordinate, so the second is not the same draw. -/
def Obligations.DrawTwiceRestoresTheDisplay : Prop :=
  ∀ (x y : Reg) (n : Nibble) (s : State), x ≠ flagReg → y ≠ flagReg → s.cursor + n.toNat ≤ 4096 →
    ∃ t u, exec (.draw x y n) s = .next t ∧ exec (.draw x y n) t = .next u ∧ u.fb = s.fb ∧
      (s.fb = Framebuffer.blank → t.reg flagReg = 0 ∧
        (u.reg flagReg = 1 ↔ ∃ row col, drawCovers s x y n row col = true))

/-! ## Keypad and timers -/

/-- R220, R221: the low nibble of `x[X]` selects the key; pressed, or not pressed, adds 2 to pc. -/
def Obligations.SkipsOnKeys : Prop :=
  ∀ (x : Reg) (k : Fin 16) (s : State), k.val = (s.reg x).toNat % 16 →
    exec (.skipKeyPressed x) s =
      .next { s with pc := if s.keys[k.val] = true then s.pc + 2 else s.pc } ∧
    exec (.skipKeyNotPressed x) s =
      .next { s with pc := if s.keys[k.val] = false then s.pc + 2 else s.pc }

/-- get-key: the lowest pressed key into `x[X]`, no wait for release (the spec's decision D27, log entry 17);
with none pressed pc goes back by 2 and nothing else changes. -/
def Obligations.GetKeyTakesLowestOrRewinds : Prop :=
  ∀ (x : Reg) (s : State),
    (∀ k : Fin 16, s.keys[k.val] = true → (∀ j : Fin 16, j < k → s.keys[j.val] = false) →
      ∃ t, exec (.getKey x) s = .next t ∧ (t.reg x).toNat = k.val ∧ OnlyRegs (· = x) s t) ∧
    ((∀ k : Fin 16, s.keys[k.val] = false) → exec (.getKey x) s = .next { s with pc := s.pc - 2 })

/-- A tick on get-key with no key pressed changes nothing but the model's own error output, mark of a
tick and schedule: the same instruction runs at the next tick. -/
def Obligations.GetKeyWaitIsARepeatedTick : Prop :=
  ∀ (x : Reg) (s : State), AboutToTick s → s.pc.toNat < 4095 →
    decodeWord (wordAtPc s) = some (.getKey x) → (∀ k : Fin 16, s.keys[k.val] = false) →
    step s = .next { s with errOut := none, ticked := true, schedule := afterNext s }

/-- R223 to R225: the delay timer is read into and written from a register, the sound timer written from
one; nothing else changes. -/
def Obligations.TimerInstructionsMoveBytes : Prop :=
  ∀ (x : Reg) (s : State),
    (∃ t, exec (.loadDelay x) s = .next t ∧ t.reg x = s.delay ∧ OnlyRegs (· = x) s t) ∧
    exec (.setDelay x) s = .next { s with delay := s.reg x } ∧
    exec (.setSound x) s = .next { s with sound := s.reg x }

/-! ## What no instruction does -/

/-- R260: each device is reached by its own instructions only: any other instruction neither reads nor
writes the display, the keypad, a timer or the random source. -/
def Obligations.DevicesReachedByTheirInstructionsOnly : Prop :=
  ∀ (i : Instr) (s : State),
    (i ≠ .clearScreen → (∀ x y n, i ≠ .draw x y n) → ∀ f : Framebuffer,
      exec i { s with fb := f } = mapNext (fun t => { t with fb := f }) (exec i s)) ∧
    ((∀ x, i ≠ .skipKeyPressed x) → (∀ x, i ≠ .skipKeyNotPressed x) → (∀ x, i ≠ .getKey x) →
      ∀ p : Vector Bool 16,
      exec i { s with keys := p } = mapNext (fun t => { t with keys := p }) (exec i s)) ∧
    ((∀ x, i ≠ .loadDelay x) → (∀ x, i ≠ .setDelay x) → ∀ v : Byte,
      exec i { s with delay := v } = mapNext (fun t => { t with delay := v }) (exec i s)) ∧
    ((∀ x, i ≠ .setSound x) → ∀ v : Byte,
      exec i { s with sound := v } = mapNext (fun t => { t with sound := v }) (exec i s)) ∧
    ((∀ x nn, i ≠ .random x nn) → ∀ d : Nat,
      exec i { s with draws := d } = mapNext (fun t => { t with draws := d }) (exec i s))

/-- No instruction but call and return reads or writes the call stack (10_state.md section 5). -/
def Obligations.StackIsPrivateToCallAndReturn : Prop :=
  ∀ (i : Instr) (s : State) (st : List Word), i ≠ .ret → (∀ nnn, i ≠ .call nnn) →
    exec i { s with stack := st } = mapNext (fun t => { t with stack := st }) (exec i s)

/-- No instruction but draw, bcd, store-regs and load-regs reads or writes memory after its fetch, and of
those only bcd and store-regs write it (20_memory.md section 2). -/
def Obligations.MemoryIsReachedByFourInstructions : Prop :=
  ∀ (i : Instr) (s : State),
    (reachesMemory i = false → ∀ m : Memory,
      exec i { s with mem := m } = mapNext (fun t => { t with mem := m }) (exec i s)) ∧
    ((∀ x, i ≠ .bcd x) → (∀ x, i ≠ .storeRegs x) → ∀ t, exec i s = .next t →
      ∀ a, t.byteAt a = s.byteAt a)

/-- `I` is written by load-index, add-index and font-address only, and no memory access moves it (10_state.md
section 3; D24, log entry 16). -/
def Obligations.IndexWrittenByThreeInstructions : Prop :=
  ∀ (i : Instr) (s t : State), (∀ nnn, i ≠ .loadIndex nnn) → (∀ x, i ≠ .addIndex x) →
    (∀ x, i ≠ .fontAddress x) → exec i s = .next t → t.index = s.index

/-- Only the skips, get-key, jump, call, jump-offset and return do more to the pc than fetch did (R31), each in
its own way: a skip leaves it or adds 2, get-key leaves it with a key down and takes 2 off with none, return on
the empty stack leaves it, and on another takes the last element. -/
def Obligations.PcChangedByControlInstructionsOnly : Prop :=
  ∀ (i : Instr) (s t : State), exec i s = .next t →
    (changesPc i = false ∧ t.pc = s.pc) ∨
    (isSkip i = true ∧ (t.pc = s.pc ∨ t.pc = s.pc + 2)) ∨
    (∃ x, i = .getKey x ∧ (∃ k : Fin 16, s.keys[k.val] = true) ∧ t.pc = s.pc) ∨
    (∃ x, i = .getKey x ∧ (∀ k : Fin 16, s.keys[k.val] = false) ∧ t.pc = s.pc - 2) ∨
    (∃ nnn, (i = .jump nnn ∨ i = .call nnn) ∧ t.pc = nnn.setWidth 16) ∨
    (∃ nnn, i = .jumpOffset nnn ∧ t.pc.toNat = nnn.toNat + (s.reg 0).toNat) ∨
    (i = .ret ∧ s.stack = [] ∧ t.pc = s.pc) ∨
    (i = .ret ∧ ∃ st, s.stack = st ++ [t.pc])

/-- An instruction changes no register but its destination and, for the six flag writers, `x[15]` (10_state.md
section 2; no other flag effect: D25, log entry 16). -/
def Obligations.RegistersChangeOnlyAsNamed : Prop :=
  ∀ (i : Instr) (s t : State), exec i s = .next t → ∀ r, ¬ writesReg i r → t.reg r = s.reg r

/-- A register an instruction does not read has no influence on anything but itself: no instruction reads the
flag register, or any other, without naming it (R25), but jump-offset reads `x[0]` (R147). -/
def Obligations.RegistersAreReadOnlyAsNamed : Prop :=
  ∀ (i : Instr) (r : Reg) (v : Byte) (s : State), ¬ readsReg i r →
    mapNext (fun t => t.setReg r 0) (exec i (s.setReg r v)) = mapNext (fun t => t.setReg r 0) (exec i s)

/-- No instruction changes the run state, the keypad, the schedule or the mark of a tick, or adds to the
error output but a return on the empty stack. -/
def Obligations.InstructionsKeepTheHostsState : Prop :=
  ∀ (i : Instr) (s t : State), exec i s = .next t →
    t.run = s.run ∧ t.keys = s.keys ∧ t.schedule = s.schedule ∧ t.ticked = s.ticked ∧
      (t.errOut = s.errOut ∨ (i = .ret ∧ s.stack = [] ∧ t.errOut = some .stackUnderflow))

/-! ## Invariants -/

/-- Every step keeps memory in its canonical form. -/
def Obligations.StepKeepsMemoryCanonical : Prop :=
  ∀ s t : State, Memory.wf s.mem = true → step s = .next t → Memory.wf t.mem = true

/-- The bound of 10_state.md section 4 (R32) is inductive with the bound on stacked addresses: whatever event
a step serves, pc stays at most 0x10FE and every stacked address at most 0x1000. -/
def Obligations.StepKeepsPcAndStackBounded : Prop :=
  ∀ s t : State, PcAndStackBounded s → step s = .next t → PcAndStackBounded t

/-- Reset meets both invariants. -/
def Obligations.ResetMeetsTheInvariants : Prop :=
  Memory.wf State.reset.mem = true ∧ PcAndStackBounded State.reset

/-- The word of any instruction placed where the next step fetches is run by that step (log entry 20). -/
def Obligations.PlacedInstructionIsRunNext : Prop :=
  ∀ (i : Instr) (s : State), Memory.wf s.mem = true →
    step (s.withFetchWord 16 (encode i).toNat) =
      exec i (s.withFetchWord 16 (encode i).toNat).advance
end

