-- ==== Sys2Proof/Laws/Decode.lean ====
section
/-! SUPPORT. The decoder: the fields of an encoded word, what the masks of the opcode map keep of it, and
that a word selects at most one row. -/

namespace Sys2Proof

/-! ## The fields of a word put together from fields -/

theorem extract_low {v w : Nat} (hi : BitVec v) (lo : BitVec w) : (hi ++ lo).extractLsb' 0 w = lo :=
  (BitVec.extractLsb'_append_eq_of_add_le (by omega)).trans BitVec.extractLsb'_eq_self

theorem extract_mid {u v w : Nat} (hi : BitVec u) (mid : BitVec v) (lo : BitVec w) :
    (hi ++ mid ++ lo).extractLsb' w v = mid := by
  rw [BitVec.extractLsb'_append_eq_of_le (Nat.le_refl w), Nat.sub_self]
  exact extract_low hi mid

theorem fieldNNN_pack (op : Nibble) (nnn : Addr12) : fieldNNN (op ++ nnn) = nnn := extract_low op nnn

theorem fieldX_pack8 (op x : Nibble) (nn : Byte) : fieldX (op ++ x ++ nn) = x := extract_mid op x nn

theorem fieldNN_pack8 (op x : Nibble) (nn : Byte) : fieldNN (op ++ x ++ nn) = nn :=
  extract_low (op ++ x) nn

theorem fieldX_pack44 (op x y n : Nibble) : fieldX (op ++ x ++ y ++ n) = x := by
  show BitVec.extractLsb' 8 4 (op ++ x ++ y ++ n) = x
  rw [BitVec.extractLsb'_append_eq_of_le (by decide), BitVec.extractLsb'_append_eq_of_le (by decide)]
  exact extract_low op x

theorem fieldY_pack44 (op x y n : Nibble) : fieldY (op ++ x ++ y ++ n) = y :=
  extract_mid (op ++ x) y n

theorem fieldN_pack44 (op x y n : Nibble) : fieldN (op ++ x ++ y ++ n) = n :=
  extract_low (op ++ x ++ y) n

@[simp] theorem toFin_regBits (r : Reg) : (regBits r).toFin = r := rfl

theorem regX_pack8 (op : Nibble) (r : Reg) (nn : Byte) : regX (op ++ regBits r ++ nn) = r :=
  congrArg BitVec.toFin (fieldX_pack8 op (regBits r) nn)

theorem regX_pack44 (op : Nibble) (r : Reg) (y n : Nibble) :
    regX (op ++ regBits r ++ y ++ n) = r := congrArg BitVec.toFin (fieldX_pack44 op (regBits r) y n)

theorem regY_pack44 (op x : Nibble) (r : Reg) (n : Nibble) :
    regY (op ++ x ++ regBits r ++ n) = r := congrArg BitVec.toFin (fieldY_pack44 op x (regBits r) n)

/-! ## What the four masks keep -/

theorem maskOp_packNNN (op : Nibble) (nnn : Addr12) :
    (op ++ nnn : Word) &&& 0xF000#16 = op ++ 0#12 := by
  have h : (op ++ nnn) &&& (0xF#4 ++ 0#12) = (op &&& 0xF#4) ++ (nnn &&& 0#12) := BitVec.and_append
  have h1 : op &&& 0xF#4 = op := BitVec.and_allOnes
  rw [h1, BitVec.and_zero] at h
  exact h

theorem maskOp_pack8 (op x : Nibble) (nn : Byte) :
    (op ++ x ++ nn : Word) &&& 0xF000#16 = op ++ 0#4 ++ 0#8 := by
  have h : (op ++ x ++ nn) &&& (0xF#4 ++ 0#4 ++ 0#8) = (op &&& 0xF#4) ++ (x &&& 0#4) ++ (nn &&& 0#8) := by
    rw [BitVec.and_append, BitVec.and_append]
  have h1 : op &&& 0xF#4 = op := BitVec.and_allOnes
  rw [h1, BitVec.and_zero, BitVec.and_zero] at h
  exact h

theorem maskOpLow_pack8 (op x : Nibble) (nn : Byte) :
    (op ++ x ++ nn : Word) &&& 0xF0FF#16 = op ++ 0#4 ++ nn := by
  have h : (op ++ x ++ nn) &&& (0xF#4 ++ 0#4 ++ 0xFF#8) = (op &&& 0xF#4) ++ (x &&& 0#4) ++ (nn &&& 0xFF#8) := by
    rw [BitVec.and_append, BitVec.and_append]
  have h1 : op &&& 0xF#4 = op := BitVec.and_allOnes
  have h2 : nn &&& 0xFF#8 = nn := BitVec.and_allOnes
  rw [h1, h2, BitVec.and_zero] at h
  exact h

theorem maskOpN_pack44 (op x y n : Nibble) :
    (op ++ x ++ y ++ n : Word) &&& 0xF00F#16 = op ++ 0#4 ++ 0#4 ++ n := by
  have h : (op ++ x ++ y ++ n) &&& (0xF#4 ++ 0#4 ++ 0#4 ++ 0xF#4)
      = (op &&& 0xF#4) ++ (x &&& 0#4) ++ (y &&& 0#4) ++ (n &&& 0xF#4) := by
    rw [BitVec.and_append, BitVec.and_append, BitVec.and_append]
  have h1 : op &&& 0xF#4 = op := BitVec.and_allOnes
  have h2 : n &&& 0xF#4 = n := BitVec.and_allOnes
  rw [h1, h2, BitVec.and_zero, BitVec.and_zero] at h
  exact h

theorem maskOp_pack44 (op x y n : Nibble) :
    (op ++ x ++ y ++ n : Word) &&& 0xF000#16 = op ++ 0#4 ++ 0#4 ++ 0#4 := by
  have h : (op ++ x ++ y ++ n) &&& (0xF#4 ++ 0#4 ++ 0#4 ++ 0#4)
      = (op &&& 0xF#4) ++ (x &&& 0#4) ++ (y &&& 0#4) ++ (n &&& 0#4) := by
    rw [BitVec.and_append, BitVec.and_append, BitVec.and_append]
  have h1 : op &&& 0xF#4 = op := BitVec.and_allOnes
  rw [h1, BitVec.and_zero, BitVec.and_zero, BitVec.and_zero] at h
  exact h

/-! ## At most one row -/

/-- Two rows demand different values of a bit both of them fix. -/
def OpcodeRow.apart (p q : OpcodeRow) : Bool := (p.bits ^^^ q.bits) &&& (p.mask &&& q.mask) != 0#16

/-- The patterns of R94 are pairwise disjoint. -/
theorem opcodeRows_apart : opcodeRows.Pairwise (fun p q => p.apart q = true) := by decide

theorem OpcodeRow.not_both {p q : OpcodeRow} (h : p.apart q = true) {w : Word}
    (hp : p.selects w = true) : q.selects w = false := by
  simp only [OpcodeRow.selects, beq_iff_eq, beq_eq_false_iff_ne] at *
  intro hq
  simp only [OpcodeRow.apart, bne_iff_ne] at h
  apply h
  rw [← hp, ← hq]
  apply BitVec.eq_of_getLsbD_eq
  intro i hi
  simp only [BitVec.getLsbD_and, BitVec.getLsbD_xor, BitVec.getLsbD_zero]
  cases w.getLsbD i <;> cases p.mask.getLsbD i <;> cases q.mask.getLsbD i <;> rfl

/-- A word that selects a row of the map decodes as that row's instruction: the order of the rows does not
matter (R94, R123). -/
theorem decodeWord_of_selects {r : OpcodeRow} (hr : r ∈ opcodeRows) {w : Word}
    (hw : r.selects w = true) : decodeWord w = some (r.build w) := by
  have key : ∀ rows : List OpcodeRow, rows.Pairwise (fun p q => p.apart q = true) → r ∈ rows →
      rows.find? (fun q => q.selects w) = some r := by
    intro rows hrows hmem
    induction rows with
    | nil => cases hmem
    | cons q rows ih =>
      rw [List.pairwise_cons] at hrows
      rcases List.mem_cons.mp hmem with rfl | hmem
      · simp [hw]
      · have hq : q.selects w = false := by
          cases hs : q.selects w with
          | false => rfl
          | true => rw [OpcodeRow.not_both (hrows.1 r hmem) hs] at hw; cases hw
        simp [hq, ih hrows.2 hmem]
  simp [decodeWord, key opcodeRows opcodeRows_apart hr]

/-- What the decoder answers is the instruction of a row the word selects. -/
theorem decodeWord_some {w : Word} {i : Instr} (h : decodeWord w = some i) :
    ∃ r ∈ opcodeRows, r.selects w = true ∧ r.build w = i := by
  simp only [decodeWord, Option.map_eq_some_iff] at h
  obtain ⟨r, hr, rfl⟩ := h
  exact ⟨r, List.mem_of_find?_eq_some hr, List.find?_some (p := fun q : OpcodeRow => q.selects w) hr, rfl⟩

theorem decodeWord_none {w : Word} : decodeWord w = none ↔ ∀ r ∈ opcodeRows, r.selects w = false := by
  simp [decodeWord]

end Sys2Proof
end

