-- ==== Sys2Proof/Laws/State.lean ====
section
/-! SUPPORT. One lemma per field per named update of the state, each true by rfl, so that no proof unfolds
a record update, and what a register reads as after each update. -/

namespace Sys2Proof.Machine

/-! ### `State.setReg` -/

@[simp] theorem State.setReg_regs (s : State) (r : Reg) (v : Byte) : (s.setReg r v).regs = s.regs.set r.val v := rfl
@[simp] theorem State.setReg_index (s : State) (r : Reg) (v : Byte) : (s.setReg r v).index = s.index := rfl
@[simp] theorem State.setReg_pc (s : State) (r : Reg) (v : Byte) : (s.setReg r v).pc = s.pc := rfl
@[simp] theorem State.setReg_stack (s : State) (r : Reg) (v : Byte) : (s.setReg r v).stack = s.stack := rfl
@[simp] theorem State.setReg_mem (s : State) (r : Reg) (v : Byte) : (s.setReg r v).mem = s.mem := rfl
@[simp] theorem State.setReg_fb (s : State) (r : Reg) (v : Byte) : (s.setReg r v).fb = s.fb := rfl
@[simp] theorem State.setReg_delay (s : State) (r : Reg) (v : Byte) : (s.setReg r v).delay = s.delay := rfl
@[simp] theorem State.setReg_sound (s : State) (r : Reg) (v : Byte) : (s.setReg r v).sound = s.sound := rfl
@[simp] theorem State.setReg_keys (s : State) (r : Reg) (v : Byte) : (s.setReg r v).keys = s.keys := rfl
@[simp] theorem State.setReg_run (s : State) (r : Reg) (v : Byte) : (s.setReg r v).run = s.run := rfl
@[simp] theorem State.setReg_errOut (s : State) (r : Reg) (v : Byte) : (s.setReg r v).errOut = s.errOut := rfl
@[simp] theorem State.setReg_ticked (s : State) (r : Reg) (v : Byte) : (s.setReg r v).ticked = s.ticked := rfl
@[simp] theorem State.setReg_draws (s : State) (r : Reg) (v : Byte) : (s.setReg r v).draws = s.draws := rfl
@[simp] theorem State.setReg_schedule (s : State) (r : Reg) (v : Byte) : (s.setReg r v).schedule = s.schedule := rfl
@[simp] theorem State.setReg_byteAt (s : State) (r : Reg) (v : Byte) (c : Nat) : (s.setReg r v).byteAt c = s.byteAt c := rfl
@[simp] theorem State.setReg_cursor (s : State) (r : Reg) (v : Byte) : (s.setReg r v).cursor = s.cursor := rfl

/-! ### `State.setRegs` -/

@[simp] theorem State.setRegs_regs (s : State) (v : Vector Byte 16) : (s.setRegs v).regs = v := rfl
@[simp] theorem State.setRegs_index (s : State) (v : Vector Byte 16) : (s.setRegs v).index = s.index := rfl
@[simp] theorem State.setRegs_pc (s : State) (v : Vector Byte 16) : (s.setRegs v).pc = s.pc := rfl
@[simp] theorem State.setRegs_stack (s : State) (v : Vector Byte 16) : (s.setRegs v).stack = s.stack := rfl
@[simp] theorem State.setRegs_mem (s : State) (v : Vector Byte 16) : (s.setRegs v).mem = s.mem := rfl
@[simp] theorem State.setRegs_fb (s : State) (v : Vector Byte 16) : (s.setRegs v).fb = s.fb := rfl
@[simp] theorem State.setRegs_delay (s : State) (v : Vector Byte 16) : (s.setRegs v).delay = s.delay := rfl
@[simp] theorem State.setRegs_sound (s : State) (v : Vector Byte 16) : (s.setRegs v).sound = s.sound := rfl
@[simp] theorem State.setRegs_keys (s : State) (v : Vector Byte 16) : (s.setRegs v).keys = s.keys := rfl
@[simp] theorem State.setRegs_run (s : State) (v : Vector Byte 16) : (s.setRegs v).run = s.run := rfl
@[simp] theorem State.setRegs_errOut (s : State) (v : Vector Byte 16) : (s.setRegs v).errOut = s.errOut := rfl
@[simp] theorem State.setRegs_ticked (s : State) (v : Vector Byte 16) : (s.setRegs v).ticked = s.ticked := rfl
@[simp] theorem State.setRegs_draws (s : State) (v : Vector Byte 16) : (s.setRegs v).draws = s.draws := rfl
@[simp] theorem State.setRegs_schedule (s : State) (v : Vector Byte 16) : (s.setRegs v).schedule = s.schedule := rfl
@[simp] theorem State.setRegs_byteAt (s : State) (v : Vector Byte 16) (c : Nat) : (s.setRegs v).byteAt c = s.byteAt c := rfl
@[simp] theorem State.setRegs_cursor (s : State) (v : Vector Byte 16) : (s.setRegs v).cursor = s.cursor := rfl

/-! ### `State.setIndex` -/

@[simp] theorem State.setIndex_regs (s : State) (v : Word) : (s.setIndex v).regs = s.regs := rfl
@[simp] theorem State.setIndex_index (s : State) (v : Word) : (s.setIndex v).index = v := rfl
@[simp] theorem State.setIndex_pc (s : State) (v : Word) : (s.setIndex v).pc = s.pc := rfl
@[simp] theorem State.setIndex_stack (s : State) (v : Word) : (s.setIndex v).stack = s.stack := rfl
@[simp] theorem State.setIndex_mem (s : State) (v : Word) : (s.setIndex v).mem = s.mem := rfl
@[simp] theorem State.setIndex_fb (s : State) (v : Word) : (s.setIndex v).fb = s.fb := rfl
@[simp] theorem State.setIndex_delay (s : State) (v : Word) : (s.setIndex v).delay = s.delay := rfl
@[simp] theorem State.setIndex_sound (s : State) (v : Word) : (s.setIndex v).sound = s.sound := rfl
@[simp] theorem State.setIndex_keys (s : State) (v : Word) : (s.setIndex v).keys = s.keys := rfl
@[simp] theorem State.setIndex_run (s : State) (v : Word) : (s.setIndex v).run = s.run := rfl
@[simp] theorem State.setIndex_errOut (s : State) (v : Word) : (s.setIndex v).errOut = s.errOut := rfl
@[simp] theorem State.setIndex_ticked (s : State) (v : Word) : (s.setIndex v).ticked = s.ticked := rfl
@[simp] theorem State.setIndex_draws (s : State) (v : Word) : (s.setIndex v).draws = s.draws := rfl
@[simp] theorem State.setIndex_schedule (s : State) (v : Word) : (s.setIndex v).schedule = s.schedule := rfl
@[simp] theorem State.setIndex_reg (s : State) (v : Word) (q : Reg) : (s.setIndex v).reg q = s.reg q := rfl
@[simp] theorem State.setIndex_byteAt (s : State) (v : Word) (c : Nat) : (s.setIndex v).byteAt c = s.byteAt c := rfl

/-! ### `State.setPc` -/

@[simp] theorem State.setPc_regs (s : State) (t : Word) : (s.setPc t).regs = s.regs := rfl
@[simp] theorem State.setPc_index (s : State) (t : Word) : (s.setPc t).index = s.index := rfl
@[simp] theorem State.setPc_pc (s : State) (t : Word) : (s.setPc t).pc = t := rfl
@[simp] theorem State.setPc_stack (s : State) (t : Word) : (s.setPc t).stack = s.stack := rfl
@[simp] theorem State.setPc_mem (s : State) (t : Word) : (s.setPc t).mem = s.mem := rfl
@[simp] theorem State.setPc_fb (s : State) (t : Word) : (s.setPc t).fb = s.fb := rfl
@[simp] theorem State.setPc_delay (s : State) (t : Word) : (s.setPc t).delay = s.delay := rfl
@[simp] theorem State.setPc_sound (s : State) (t : Word) : (s.setPc t).sound = s.sound := rfl
@[simp] theorem State.setPc_keys (s : State) (t : Word) : (s.setPc t).keys = s.keys := rfl
@[simp] theorem State.setPc_run (s : State) (t : Word) : (s.setPc t).run = s.run := rfl
@[simp] theorem State.setPc_errOut (s : State) (t : Word) : (s.setPc t).errOut = s.errOut := rfl
@[simp] theorem State.setPc_ticked (s : State) (t : Word) : (s.setPc t).ticked = s.ticked := rfl
@[simp] theorem State.setPc_draws (s : State) (t : Word) : (s.setPc t).draws = s.draws := rfl
@[simp] theorem State.setPc_schedule (s : State) (t : Word) : (s.setPc t).schedule = s.schedule := rfl
@[simp] theorem State.setPc_reg (s : State) (t : Word) (q : Reg) : (s.setPc t).reg q = s.reg q := rfl
@[simp] theorem State.setPc_byteAt (s : State) (t : Word) (c : Nat) : (s.setPc t).byteAt c = s.byteAt c := rfl
@[simp] theorem State.setPc_cursor (s : State) (t : Word) : (s.setPc t).cursor = s.cursor := rfl

/-! ### `State.setStack` -/

@[simp] theorem State.setStack_regs (s : State) (st : List Word) : (s.setStack st).regs = s.regs := rfl
@[simp] theorem State.setStack_index (s : State) (st : List Word) : (s.setStack st).index = s.index := rfl
@[simp] theorem State.setStack_pc (s : State) (st : List Word) : (s.setStack st).pc = s.pc := rfl
@[simp] theorem State.setStack_stack (s : State) (st : List Word) : (s.setStack st).stack = st := rfl
@[simp] theorem State.setStack_mem (s : State) (st : List Word) : (s.setStack st).mem = s.mem := rfl
@[simp] theorem State.setStack_fb (s : State) (st : List Word) : (s.setStack st).fb = s.fb := rfl
@[simp] theorem State.setStack_delay (s : State) (st : List Word) : (s.setStack st).delay = s.delay := rfl
@[simp] theorem State.setStack_sound (s : State) (st : List Word) : (s.setStack st).sound = s.sound := rfl
@[simp] theorem State.setStack_keys (s : State) (st : List Word) : (s.setStack st).keys = s.keys := rfl
@[simp] theorem State.setStack_run (s : State) (st : List Word) : (s.setStack st).run = s.run := rfl
@[simp] theorem State.setStack_errOut (s : State) (st : List Word) : (s.setStack st).errOut = s.errOut := rfl
@[simp] theorem State.setStack_ticked (s : State) (st : List Word) : (s.setStack st).ticked = s.ticked := rfl
@[simp] theorem State.setStack_draws (s : State) (st : List Word) : (s.setStack st).draws = s.draws := rfl
@[simp] theorem State.setStack_schedule (s : State) (st : List Word) : (s.setStack st).schedule = s.schedule := rfl
@[simp] theorem State.setStack_reg (s : State) (st : List Word) (q : Reg) : (s.setStack st).reg q = s.reg q := rfl
@[simp] theorem State.setStack_byteAt (s : State) (st : List Word) (c : Nat) : (s.setStack st).byteAt c = s.byteAt c := rfl
@[simp] theorem State.setStack_cursor (s : State) (st : List Word) : (s.setStack st).cursor = s.cursor := rfl

/-! ### `State.setMem` -/

@[simp] theorem State.setMem_regs (s : State) (m : Memory) : (s.setMem m).regs = s.regs := rfl
@[simp] theorem State.setMem_index (s : State) (m : Memory) : (s.setMem m).index = s.index := rfl
@[simp] theorem State.setMem_pc (s : State) (m : Memory) : (s.setMem m).pc = s.pc := rfl
@[simp] theorem State.setMem_stack (s : State) (m : Memory) : (s.setMem m).stack = s.stack := rfl
@[simp] theorem State.setMem_mem (s : State) (m : Memory) : (s.setMem m).mem = m := rfl
@[simp] theorem State.setMem_fb (s : State) (m : Memory) : (s.setMem m).fb = s.fb := rfl
@[simp] theorem State.setMem_delay (s : State) (m : Memory) : (s.setMem m).delay = s.delay := rfl
@[simp] theorem State.setMem_sound (s : State) (m : Memory) : (s.setMem m).sound = s.sound := rfl
@[simp] theorem State.setMem_keys (s : State) (m : Memory) : (s.setMem m).keys = s.keys := rfl
@[simp] theorem State.setMem_run (s : State) (m : Memory) : (s.setMem m).run = s.run := rfl
@[simp] theorem State.setMem_errOut (s : State) (m : Memory) : (s.setMem m).errOut = s.errOut := rfl
@[simp] theorem State.setMem_ticked (s : State) (m : Memory) : (s.setMem m).ticked = s.ticked := rfl
@[simp] theorem State.setMem_draws (s : State) (m : Memory) : (s.setMem m).draws = s.draws := rfl
@[simp] theorem State.setMem_schedule (s : State) (m : Memory) : (s.setMem m).schedule = s.schedule := rfl
@[simp] theorem State.setMem_reg (s : State) (m : Memory) (q : Reg) : (s.setMem m).reg q = s.reg q := rfl
@[simp] theorem State.setMem_cursor (s : State) (m : Memory) : (s.setMem m).cursor = s.cursor := rfl

/-! ### `State.setFb` -/

@[simp] theorem State.setFb_regs (s : State) (f : Framebuffer) : (s.setFb f).regs = s.regs := rfl
@[simp] theorem State.setFb_index (s : State) (f : Framebuffer) : (s.setFb f).index = s.index := rfl
@[simp] theorem State.setFb_pc (s : State) (f : Framebuffer) : (s.setFb f).pc = s.pc := rfl
@[simp] theorem State.setFb_stack (s : State) (f : Framebuffer) : (s.setFb f).stack = s.stack := rfl
@[simp] theorem State.setFb_mem (s : State) (f : Framebuffer) : (s.setFb f).mem = s.mem := rfl
@[simp] theorem State.setFb_fb (s : State) (f : Framebuffer) : (s.setFb f).fb = f := rfl
@[simp] theorem State.setFb_delay (s : State) (f : Framebuffer) : (s.setFb f).delay = s.delay := rfl
@[simp] theorem State.setFb_sound (s : State) (f : Framebuffer) : (s.setFb f).sound = s.sound := rfl
@[simp] theorem State.setFb_keys (s : State) (f : Framebuffer) : (s.setFb f).keys = s.keys := rfl
@[simp] theorem State.setFb_run (s : State) (f : Framebuffer) : (s.setFb f).run = s.run := rfl
@[simp] theorem State.setFb_errOut (s : State) (f : Framebuffer) : (s.setFb f).errOut = s.errOut := rfl
@[simp] theorem State.setFb_ticked (s : State) (f : Framebuffer) : (s.setFb f).ticked = s.ticked := rfl
@[simp] theorem State.setFb_draws (s : State) (f : Framebuffer) : (s.setFb f).draws = s.draws := rfl
@[simp] theorem State.setFb_schedule (s : State) (f : Framebuffer) : (s.setFb f).schedule = s.schedule := rfl
@[simp] theorem State.setFb_reg (s : State) (f : Framebuffer) (q : Reg) : (s.setFb f).reg q = s.reg q := rfl
@[simp] theorem State.setFb_byteAt (s : State) (f : Framebuffer) (c : Nat) : (s.setFb f).byteAt c = s.byteAt c := rfl
@[simp] theorem State.setFb_cursor (s : State) (f : Framebuffer) : (s.setFb f).cursor = s.cursor := rfl

/-! ### `State.setDelay` -/

@[simp] theorem State.setDelay_regs (s : State) (v : Byte) : (s.setDelay v).regs = s.regs := rfl
@[simp] theorem State.setDelay_index (s : State) (v : Byte) : (s.setDelay v).index = s.index := rfl
@[simp] theorem State.setDelay_pc (s : State) (v : Byte) : (s.setDelay v).pc = s.pc := rfl
@[simp] theorem State.setDelay_stack (s : State) (v : Byte) : (s.setDelay v).stack = s.stack := rfl
@[simp] theorem State.setDelay_mem (s : State) (v : Byte) : (s.setDelay v).mem = s.mem := rfl
@[simp] theorem State.setDelay_fb (s : State) (v : Byte) : (s.setDelay v).fb = s.fb := rfl
@[simp] theorem State.setDelay_delay (s : State) (v : Byte) : (s.setDelay v).delay = v := rfl
@[simp] theorem State.setDelay_sound (s : State) (v : Byte) : (s.setDelay v).sound = s.sound := rfl
@[simp] theorem State.setDelay_keys (s : State) (v : Byte) : (s.setDelay v).keys = s.keys := rfl
@[simp] theorem State.setDelay_run (s : State) (v : Byte) : (s.setDelay v).run = s.run := rfl
@[simp] theorem State.setDelay_errOut (s : State) (v : Byte) : (s.setDelay v).errOut = s.errOut := rfl
@[simp] theorem State.setDelay_ticked (s : State) (v : Byte) : (s.setDelay v).ticked = s.ticked := rfl
@[simp] theorem State.setDelay_draws (s : State) (v : Byte) : (s.setDelay v).draws = s.draws := rfl
@[simp] theorem State.setDelay_schedule (s : State) (v : Byte) : (s.setDelay v).schedule = s.schedule := rfl
@[simp] theorem State.setDelay_reg (s : State) (v : Byte) (q : Reg) : (s.setDelay v).reg q = s.reg q := rfl
@[simp] theorem State.setDelay_byteAt (s : State) (v : Byte) (c : Nat) : (s.setDelay v).byteAt c = s.byteAt c := rfl
@[simp] theorem State.setDelay_cursor (s : State) (v : Byte) : (s.setDelay v).cursor = s.cursor := rfl

/-! ### `State.setSound` -/

@[simp] theorem State.setSound_regs (s : State) (v : Byte) : (s.setSound v).regs = s.regs := rfl
@[simp] theorem State.setSound_index (s : State) (v : Byte) : (s.setSound v).index = s.index := rfl
@[simp] theorem State.setSound_pc (s : State) (v : Byte) : (s.setSound v).pc = s.pc := rfl
@[simp] theorem State.setSound_stack (s : State) (v : Byte) : (s.setSound v).stack = s.stack := rfl
@[simp] theorem State.setSound_mem (s : State) (v : Byte) : (s.setSound v).mem = s.mem := rfl
@[simp] theorem State.setSound_fb (s : State) (v : Byte) : (s.setSound v).fb = s.fb := rfl
@[simp] theorem State.setSound_delay (s : State) (v : Byte) : (s.setSound v).delay = s.delay := rfl
@[simp] theorem State.setSound_sound (s : State) (v : Byte) : (s.setSound v).sound = v := rfl
@[simp] theorem State.setSound_keys (s : State) (v : Byte) : (s.setSound v).keys = s.keys := rfl
@[simp] theorem State.setSound_run (s : State) (v : Byte) : (s.setSound v).run = s.run := rfl
@[simp] theorem State.setSound_errOut (s : State) (v : Byte) : (s.setSound v).errOut = s.errOut := rfl
@[simp] theorem State.setSound_ticked (s : State) (v : Byte) : (s.setSound v).ticked = s.ticked := rfl
@[simp] theorem State.setSound_draws (s : State) (v : Byte) : (s.setSound v).draws = s.draws := rfl
@[simp] theorem State.setSound_schedule (s : State) (v : Byte) : (s.setSound v).schedule = s.schedule := rfl
@[simp] theorem State.setSound_reg (s : State) (v : Byte) (q : Reg) : (s.setSound v).reg q = s.reg q := rfl
@[simp] theorem State.setSound_byteAt (s : State) (v : Byte) (c : Nat) : (s.setSound v).byteAt c = s.byteAt c := rfl
@[simp] theorem State.setSound_cursor (s : State) (v : Byte) : (s.setSound v).cursor = s.cursor := rfl

/-! ### `State.setKeys` -/

@[simp] theorem State.setKeys_regs (s : State) (p : Vector Bool 16) : (s.setKeys p).regs = s.regs := rfl
@[simp] theorem State.setKeys_index (s : State) (p : Vector Bool 16) : (s.setKeys p).index = s.index := rfl
@[simp] theorem State.setKeys_pc (s : State) (p : Vector Bool 16) : (s.setKeys p).pc = s.pc := rfl
@[simp] theorem State.setKeys_stack (s : State) (p : Vector Bool 16) : (s.setKeys p).stack = s.stack := rfl
@[simp] theorem State.setKeys_mem (s : State) (p : Vector Bool 16) : (s.setKeys p).mem = s.mem := rfl
@[simp] theorem State.setKeys_fb (s : State) (p : Vector Bool 16) : (s.setKeys p).fb = s.fb := rfl
@[simp] theorem State.setKeys_delay (s : State) (p : Vector Bool 16) : (s.setKeys p).delay = s.delay := rfl
@[simp] theorem State.setKeys_sound (s : State) (p : Vector Bool 16) : (s.setKeys p).sound = s.sound := rfl
@[simp] theorem State.setKeys_keys (s : State) (p : Vector Bool 16) : (s.setKeys p).keys = p := rfl
@[simp] theorem State.setKeys_run (s : State) (p : Vector Bool 16) : (s.setKeys p).run = s.run := rfl
@[simp] theorem State.setKeys_errOut (s : State) (p : Vector Bool 16) : (s.setKeys p).errOut = s.errOut := rfl
@[simp] theorem State.setKeys_ticked (s : State) (p : Vector Bool 16) : (s.setKeys p).ticked = s.ticked := rfl
@[simp] theorem State.setKeys_draws (s : State) (p : Vector Bool 16) : (s.setKeys p).draws = s.draws := rfl
@[simp] theorem State.setKeys_schedule (s : State) (p : Vector Bool 16) : (s.setKeys p).schedule = s.schedule := rfl
@[simp] theorem State.setKeys_reg (s : State) (p : Vector Bool 16) (q : Reg) : (s.setKeys p).reg q = s.reg q := rfl
@[simp] theorem State.setKeys_byteAt (s : State) (p : Vector Bool 16) (c : Nat) : (s.setKeys p).byteAt c = s.byteAt c := rfl
@[simp] theorem State.setKeys_cursor (s : State) (p : Vector Bool 16) : (s.setKeys p).cursor = s.cursor := rfl

/-! ### `State.report` -/

@[simp] theorem State.report_regs (s : State) (d : Diagnostic) : (s.report d).regs = s.regs := rfl
@[simp] theorem State.report_index (s : State) (d : Diagnostic) : (s.report d).index = s.index := rfl
@[simp] theorem State.report_pc (s : State) (d : Diagnostic) : (s.report d).pc = s.pc := rfl
@[simp] theorem State.report_stack (s : State) (d : Diagnostic) : (s.report d).stack = s.stack := rfl
@[simp] theorem State.report_mem (s : State) (d : Diagnostic) : (s.report d).mem = s.mem := rfl
@[simp] theorem State.report_fb (s : State) (d : Diagnostic) : (s.report d).fb = s.fb := rfl
@[simp] theorem State.report_delay (s : State) (d : Diagnostic) : (s.report d).delay = s.delay := rfl
@[simp] theorem State.report_sound (s : State) (d : Diagnostic) : (s.report d).sound = s.sound := rfl
@[simp] theorem State.report_keys (s : State) (d : Diagnostic) : (s.report d).keys = s.keys := rfl
@[simp] theorem State.report_run (s : State) (d : Diagnostic) : (s.report d).run = s.run := rfl
@[simp] theorem State.report_errOut (s : State) (d : Diagnostic) : (s.report d).errOut = some d := rfl
@[simp] theorem State.report_ticked (s : State) (d : Diagnostic) : (s.report d).ticked = s.ticked := rfl
@[simp] theorem State.report_draws (s : State) (d : Diagnostic) : (s.report d).draws = s.draws := rfl
@[simp] theorem State.report_schedule (s : State) (d : Diagnostic) : (s.report d).schedule = s.schedule := rfl
@[simp] theorem State.report_reg (s : State) (d : Diagnostic) (q : Reg) : (s.report d).reg q = s.reg q := rfl
@[simp] theorem State.report_byteAt (s : State) (d : Diagnostic) (c : Nat) : (s.report d).byteAt c = s.byteAt c := rfl
@[simp] theorem State.report_cursor (s : State) (d : Diagnostic) : (s.report d).cursor = s.cursor := rfl

/-! ### `State.clearReport` -/

@[simp] theorem State.clearReport_regs (s : State) : (s.clearReport).regs = s.regs := rfl
@[simp] theorem State.clearReport_index (s : State) : (s.clearReport).index = s.index := rfl
@[simp] theorem State.clearReport_pc (s : State) : (s.clearReport).pc = s.pc := rfl
@[simp] theorem State.clearReport_stack (s : State) : (s.clearReport).stack = s.stack := rfl
@[simp] theorem State.clearReport_mem (s : State) : (s.clearReport).mem = s.mem := rfl
@[simp] theorem State.clearReport_fb (s : State) : (s.clearReport).fb = s.fb := rfl
@[simp] theorem State.clearReport_delay (s : State) : (s.clearReport).delay = s.delay := rfl
@[simp] theorem State.clearReport_sound (s : State) : (s.clearReport).sound = s.sound := rfl
@[simp] theorem State.clearReport_keys (s : State) : (s.clearReport).keys = s.keys := rfl
@[simp] theorem State.clearReport_run (s : State) : (s.clearReport).run = s.run := rfl
@[simp] theorem State.clearReport_errOut (s : State) : (s.clearReport).errOut = none := rfl
@[simp] theorem State.clearReport_ticked (s : State) : (s.clearReport).ticked = s.ticked := rfl
@[simp] theorem State.clearReport_draws (s : State) : (s.clearReport).draws = s.draws := rfl
@[simp] theorem State.clearReport_schedule (s : State) : (s.clearReport).schedule = s.schedule := rfl
@[simp] theorem State.clearReport_reg (s : State) (q : Reg) : (s.clearReport).reg q = s.reg q := rfl
@[simp] theorem State.clearReport_byteAt (s : State) (c : Nat) : (s.clearReport).byteAt c = s.byteAt c := rfl
@[simp] theorem State.clearReport_cursor (s : State) : (s.clearReport).cursor = s.cursor := rfl

/-! ### `State.countDraw` -/

@[simp] theorem State.countDraw_regs (s : State) : (s.countDraw).regs = s.regs := rfl
@[simp] theorem State.countDraw_index (s : State) : (s.countDraw).index = s.index := rfl
@[simp] theorem State.countDraw_pc (s : State) : (s.countDraw).pc = s.pc := rfl
@[simp] theorem State.countDraw_stack (s : State) : (s.countDraw).stack = s.stack := rfl
@[simp] theorem State.countDraw_mem (s : State) : (s.countDraw).mem = s.mem := rfl
@[simp] theorem State.countDraw_fb (s : State) : (s.countDraw).fb = s.fb := rfl
@[simp] theorem State.countDraw_delay (s : State) : (s.countDraw).delay = s.delay := rfl
@[simp] theorem State.countDraw_sound (s : State) : (s.countDraw).sound = s.sound := rfl
@[simp] theorem State.countDraw_keys (s : State) : (s.countDraw).keys = s.keys := rfl
@[simp] theorem State.countDraw_run (s : State) : (s.countDraw).run = s.run := rfl
@[simp] theorem State.countDraw_errOut (s : State) : (s.countDraw).errOut = s.errOut := rfl
@[simp] theorem State.countDraw_ticked (s : State) : (s.countDraw).ticked = s.ticked := rfl
@[simp] theorem State.countDraw_draws (s : State) : (s.countDraw).draws = s.draws + 1 := rfl
@[simp] theorem State.countDraw_schedule (s : State) : (s.countDraw).schedule = s.schedule := rfl
@[simp] theorem State.countDraw_reg (s : State) (q : Reg) : (s.countDraw).reg q = s.reg q := rfl
@[simp] theorem State.countDraw_byteAt (s : State) (c : Nat) : (s.countDraw).byteAt c = s.byteAt c := rfl
@[simp] theorem State.countDraw_cursor (s : State) : (s.countDraw).cursor = s.cursor := rfl

/-! ### `State.advance` -/

@[simp] theorem State.advance_regs (s : State) : (s.advance).regs = s.regs := rfl
@[simp] theorem State.advance_index (s : State) : (s.advance).index = s.index := rfl
@[simp] theorem State.advance_pc (s : State) : (s.advance).pc = s.pc + 2 := rfl
@[simp] theorem State.advance_stack (s : State) : (s.advance).stack = s.stack := rfl
@[simp] theorem State.advance_mem (s : State) : (s.advance).mem = s.mem := rfl
@[simp] theorem State.advance_fb (s : State) : (s.advance).fb = s.fb := rfl
@[simp] theorem State.advance_delay (s : State) : (s.advance).delay = s.delay := rfl
@[simp] theorem State.advance_sound (s : State) : (s.advance).sound = s.sound := rfl
@[simp] theorem State.advance_keys (s : State) : (s.advance).keys = s.keys := rfl
@[simp] theorem State.advance_run (s : State) : (s.advance).run = s.run := rfl
@[simp] theorem State.advance_errOut (s : State) : (s.advance).errOut = none := rfl
@[simp] theorem State.advance_ticked (s : State) : (s.advance).ticked = true := rfl
@[simp] theorem State.advance_draws (s : State) : (s.advance).draws = s.draws := rfl
@[simp] theorem State.advance_schedule (s : State) : (s.advance).schedule = s.schedule := rfl
@[simp] theorem State.advance_reg (s : State) (q : Reg) : (s.advance).reg q = s.reg q := rfl
@[simp] theorem State.advance_byteAt (s : State) (c : Nat) : (s.advance).byteAt c = s.byteAt c := rfl
@[simp] theorem State.advance_cursor (s : State) : (s.advance).cursor = s.cursor := rfl

/-! ### Registers after a write -/

theorem State.setReg_reg (s : State) (r q : Reg) (v : Byte) :
    (s.setReg r v).reg q = if q = r then v else s.reg q := by
  simp only [State.reg, State.setReg, Vector.getElem_set, Fin.ext_iff, eq_comm]

@[simp] theorem State.setReg_reg_self (s : State) (r : Reg) (v : Byte) :
    (s.setReg r v).reg r = v := by
  simp [State.setReg_reg]

theorem State.setReg_reg_of_ne (s : State) {r q : Reg} (v : Byte) (h : q ≠ r) :
    (s.setReg r v).reg q = s.reg q := by
  simp [State.setReg_reg, h]

theorem State.setRegThenFlag_reg (s : State) (r q : Reg) (v f : Byte) :
    (s.setRegThenFlag r v f).reg q = if q = flagReg then f else if q = r then v else s.reg q := by
  simp only [State.setRegThenFlag, State.setReg_reg]

@[simp] theorem State.setRegsFrom0_reg (s : State) (bs : List Byte) (q : Reg) :
    (s.setRegsFrom0 bs).reg q = bs.getD q.val (s.reg q) := by
  simp [State.reg, State.setRegsFrom0, overlay]

theorem State.reg_ext {v w : Vector Byte 16} (h : ∀ q : Reg, v[q.val] = w[q.val]) : v = w :=
  Vector.ext fun i hi => h ⟨i, hi⟩

/-! ### Skips change the pc alone -/

theorem State.skipIf_eq (s : State) (c : Bool) :
    s.skipIf c = s.setPc (if c then s.pc + 2 else s.pc) := by
  cases c <;> rfl

end Sys2Proof.Machine
end

