-- ==== Sys2Proof/Laws/Memory.lean ====
section
/-! SUPPORT. Memory: a read after a write, and that every memory operation keeps the canonical form. -/

namespace Sys2Proof.Machine

/-! ## Reads after list operations -/

theorem Memory.read_insert (m : Memory) (a c : Nat) (v : Byte) :
    Memory.read (Memory.insert a v m) c = if c = a then v else Memory.read m c := by
  induction m with
  | nil => rfl
  | cons e rest ih =>
    obtain ⟨b, u⟩ := e
    simp only [Memory.insert]
    split
    · simp only [Memory.read]
    · split
      · next h => subst h; simp only [Memory.read]; split <;> rfl
      · next h =>
        simp only [Memory.read, ih]
        by_cases hc : c = b
        · simp [hc, Ne.symm h]
        · simp [hc]

/-- Above its lower bound a canonical memory reads an address below it as the unlisted byte. -/
theorem Memory.read_below {m : Memory} {lo : Nat} (h : Memory.wfFrom lo m = true) {a : Nat}
    (ha : a < lo) : Memory.read m a = Memory.initByte a := by
  induction m generalizing lo with
  | nil => rfl
  | cons e rest ih =>
    obtain ⟨b, u⟩ := e
    simp only [Memory.wfFrom, Bool.and_eq_true, decide_eq_true_eq] at h
    simp only [Memory.read]
    rw [if_neg (by omega)]
    exact ih h.2 (by omega)

theorem Memory.read_remove {m : Memory} {lo : Nat} (h : Memory.wfFrom lo m = true) (a c : Nat) :
    Memory.read (Memory.remove a m) c = if c = a then Memory.initByte a else Memory.read m c := by
  induction m generalizing lo with
  | nil => simp only [Memory.remove, Memory.read]; split <;> simp_all
  | cons e rest ih =>
    obtain ⟨b, u⟩ := e
    simp only [Memory.wfFrom, Bool.and_eq_true, decide_eq_true_eq] at h
    simp only [Memory.remove]
    split
    · next hab =>
      subst hab
      simp only [Memory.read]
      split
      · next hc => subst hc; exact Memory.read_below h.2 (by omega)
      · rfl
    · next hab =>
      simp only [Memory.read, ih h.2]
      by_cases hc : c = b
      · simp [hc, Ne.symm hab]
      · simp [hc]

/-- What every byte reads as after a write to a canonical memory. -/
theorem Memory.read_write {m : Memory} (h : Memory.wf m = true) (a c : Nat) (v : Byte) :
    Memory.read (Memory.write m a v) c = if c = a then v else Memory.read m c := by
  simp only [Memory.write]
  split
  · next hv => rw [Memory.read_remove (lo := 0) h, hv]
  · exact Memory.read_insert m a c v

/-! ## The canonical form is kept -/

theorem Memory.wfFrom_mono {m : Memory} {lo lo' : Nat} (h : Memory.wfFrom lo m = true)
    (hle : lo' ≤ lo) : Memory.wfFrom lo' m = true := by
  cases m with
  | nil => rfl
  | cons e rest =>
    obtain ⟨b, u⟩ := e
    simp only [Memory.wfFrom, Bool.and_eq_true, decide_eq_true_eq] at h ⊢
    exact ⟨⟨⟨by omega, h.1.1.2⟩, h.1.2⟩, h.2⟩

theorem Memory.wfFrom_insert {m : Memory} {lo a : Nat} {v : Byte} (h : Memory.wfFrom lo m = true)
    (hlo : lo ≤ a) (ha : a < 4096) (hv : v ≠ Memory.initByte a) :
    Memory.wfFrom lo (Memory.insert a v m) = true := by
  induction m generalizing lo with
  | nil => simp [Memory.insert, Memory.wfFrom, hlo, ha, hv]
  | cons e rest ih =>
    obtain ⟨b, u⟩ := e
    have hcons := h
    simp only [Memory.wfFrom, Bool.and_eq_true, decide_eq_true_eq] at h
    simp only [Memory.insert]
    split
    · next hab =>
      simp only [Memory.wfFrom, Bool.and_eq_true, decide_eq_true_eq, bne_iff_ne]
      exact ⟨⟨⟨hlo, ha⟩, hv⟩, ⟨⟨⟨by omega, h.1.1.2⟩, by simpa using h.1.2⟩, h.2⟩⟩
    · split
      · next hab =>
        subst hab
        simp only [Memory.wfFrom, Bool.and_eq_true, decide_eq_true_eq, bne_iff_ne]
        exact ⟨⟨⟨hlo, ha⟩, hv⟩, h.2⟩
      · next hlt hne =>
        simp only [Memory.wfFrom, Bool.and_eq_true, decide_eq_true_eq]
        exact ⟨h.1, ih h.2 (by omega)⟩

theorem Memory.wfFrom_remove {m : Memory} {lo : Nat} (a : Nat) (h : Memory.wfFrom lo m = true) :
    Memory.wfFrom lo (Memory.remove a m) = true := by
  induction m generalizing lo with
  | nil => rfl
  | cons e rest ih =>
    obtain ⟨b, u⟩ := e
    simp only [Memory.wfFrom, Bool.and_eq_true, decide_eq_true_eq] at h
    simp only [Memory.remove]
    split
    · exact Memory.wfFrom_mono h.2 (by omega)
    · simp only [Memory.wfFrom, Bool.and_eq_true, decide_eq_true_eq]
      exact ⟨h.1, ih h.2⟩

/-- A write inside the address space keeps the canonical form. -/
theorem Memory.wf_write {m : Memory} (h : Memory.wf m = true) {a : Nat} (ha : a < 4096) (v : Byte) :
    Memory.wf (Memory.write m a v) = true := by
  simp only [Memory.write]
  split
  · exact Memory.wfFrom_remove a h
  · next hv => exact Memory.wfFrom_insert h (Nat.zero_le a) ha hv

/-- Writing a list of bytes inside the address space keeps the canonical form. -/
theorem Memory.wf_writeAll {m : Memory} (h : Memory.wf m = true) {a : Nat} {bs : List Byte}
    (ha : a + bs.length ≤ 4096) : Memory.wf (Memory.writeAll m a bs) = true := by
  induction bs generalizing m a with
  | nil => exact h
  | cons b bs ih =>
    simp only [List.length_cons] at ha
    exact ih (Memory.wf_write h (by omega) b) (by omega)

/-- Memory right after reset has the canonical form. -/
theorem Memory.wf_reset : Memory.wf State.reset.mem = true := rfl

/-- What every byte reads as after a list of bytes is written from `a` on. -/
theorem Memory.read_writeAll {m : Memory} (h : Memory.wf m = true) {a : Nat} {bs : List Byte}
    (ha : a + bs.length ≤ 4096) (c : Nat) :
    Memory.read (Memory.writeAll m a bs) c =
      if a ≤ c ∧ c < a + bs.length then bs.getD (c - a) 0 else Memory.read m c := by
  induction bs generalizing m a with
  | nil => simp only [Memory.writeAll, List.length_nil]; rw [if_neg (by omega)]
  | cons b bs ih =>
    simp only [List.length_cons] at ha ⊢
    rw [Memory.writeAll, ih (Memory.wf_write h (by omega) b) (by omega), Memory.read_write h]
    by_cases hc : c = a
    · subst hc; rw [if_neg (by omega), if_pos rfl, if_pos (by omega)]; simp
    · by_cases hin : a + 1 ≤ c ∧ c < a + 1 + bs.length
      · rw [if_pos hin, if_pos (by omega), show c - a = (c - (a + 1)) + 1 by omega]; rfl
      · rw [if_neg hin, if_neg hc, if_neg (by omega)]

/-! ## The font and the unlisted bytes -/

theorem fontBase_bound : fontBase + 80 ≤ 0x200 := by
  have := Config.fontBase.isLt
  simp only [fontBase]
  omega

/-- A byte of the font region reads, untouched, as the font's byte (R36, R46). -/
theorem Memory.initByte_font {k : Nat} (hk : k < 80) :
    Memory.initByte (fontBase + k) = fontBytes.getD k 0 := by
  have := fontBase_bound
  simp only [Memory.initByte]
  rw [if_neg (by omega), if_pos (by omega), show fontBase + k - fontBase = k by omega]
  rfl

/-- A byte of the program region reads, untouched, as 0 (R46, R69). -/
theorem Memory.initByte_program {a : Nat} (ha : 0x200 ≤ a) : Memory.initByte a = 0 := by
  simp only [Memory.initByte]
  rw [if_pos ha]
  rfl

end Sys2Proof.Machine
end

