-- ==== Sys2Proof/Laws/Ops.lean ====
section
/-! SUPPORT. For each shared operation that can fail or that loops, one lemma that says once everything it
can do. -/

namespace Sys2Proof.Machine

/-! ## Single accesses -/

theorem State.memRead_eq (s : State) (a : Nat) :
    s.memRead a = if 4096 ≤ a then .error (.memOutOfBounds a) else .ok (s.byteAt a) := rfl

theorem State.memRead_ok (s : State) {a : Nat} (h : a < 4096) : s.memRead a = .ok (s.byteAt a) := by
  rw [State.memRead_eq, if_neg (by omega)]

theorem State.memWrite_ok (s : State) {a : Nat} (h : a < 4096) (v : Byte) :
    s.memWrite a v = .ok (s.setMem (Memory.write s.mem a v)) := by
  simp only [State.memWrite]
  rw [if_neg (by omega)]

theorem State.memWrite_error (s : State) {a : Nat} (h : 4096 ≤ a) (v : Byte) :
    s.memWrite a v = .error (.memOutOfBounds a) := if_pos h

/-! ## Byte sequences -/

/-- Inside the address space a sprite fetch gives the bytes in order (R63). -/
theorem State.readSlice_ok (s : State) {a n : Nat} (h : a + n ≤ 4096) :
    s.readSlice a n = .ok ((List.range n).map fun k => s.byteAt (a + k)) := if_neg (by omega)

theorem State.readSlice_error (s : State) {a n : Nat} (h : 4096 < a + n) :
    s.readSlice a n = .error (.memOutOfBounds (max a 4096)) := if_pos h

/-- Inside the address space `n` loads give the bytes in order (R185). -/
theorem State.loadBytes_ok (s : State) {a n : Nat} (h : a + n ≤ 4096) :
    s.loadBytes a n = .ok ((List.range n).map fun k => s.byteAt (a + k)) := by
  induction n generalizing a with
  | zero => rfl
  | succ n ih =>
    rw [State.loadBytes, s.memRead_ok (by omega)]
    simp only [ih (a := a + 1) (by omega), List.range_succ_eq_map, List.map_cons, List.map_map]
    congr 2
    exact List.map_congr_left fun k _ => by simp [Nat.add_assoc, Nat.add_comm 1 k]

/-- A load that leaves the address space is fatal at the first address outside it (R185, R245). -/
theorem State.loadBytes_error (s : State) {a n : Nat} (hn : 0 < n) (h : 4096 < a + n) :
    s.loadBytes a n = .error (.memOutOfBounds (max a 4096)) := by
  induction n generalizing a with
  | zero => omega
  | succ n ih =>
    by_cases ha : 4096 ≤ a
    · rw [State.loadBytes, State.memRead_eq, if_pos ha, Nat.max_eq_left ha]
    · rw [State.loadBytes, s.memRead_ok (by omega)]
      simp only [ih (a := a + 1) (by omega) (by omega)]
      congr 2
      omega

/-- Inside the address space a sequence of stores is one write of the whole list (R183, R184). -/
theorem State.storeBytes_ok (s : State) {a : Nat} {bs : List Byte} (h : a + bs.length ≤ 4096) :
    s.storeBytes a bs = .ok (s.setMem (Memory.writeAll s.mem a bs)) := by
  induction bs generalizing s a with
  | nil => rfl
  | cons b bs ih =>
    simp only [List.length_cons] at h
    rw [State.storeBytes, s.memWrite_ok (by omega)]
    simp only [ih (s.setMem (Memory.write s.mem a b)) (a := a + 1) (by omega)]
    rfl

/-- A sequence of stores that leaves the address space is fatal at the first address outside it (R183,
R184, R245). -/
theorem State.storeBytes_error (s : State) {a : Nat} {bs : List Byte} (hn : bs ≠ [])
    (h : 4096 < a + bs.length) : s.storeBytes a bs = .error (.memOutOfBounds (max a 4096)) := by
  induction bs generalizing s a with
  | nil => exact absurd rfl hn
  | cons b bs ih =>
    simp only [List.length_cons] at h
    by_cases ha : 4096 ≤ a
    · rw [State.storeBytes, s.memWrite_error ha, Nat.max_eq_left ha]
    · rw [State.storeBytes, s.memWrite_ok (by omega)]
      simp only [ih (s.setMem (Memory.write s.mem a b)) (a := a + 1)
        (by intro hb; subst hb; simp only [List.length_nil] at h; omega) (by omega)]
      congr 2
      omega

/-! ## Fetch -/

/-- Two bytes inside the address space are fetched big-endian (R64, R121). -/
theorem State.fetchWord_ok (s : State) (h : s.pc.toNat < 4095) :
    s.fetchWord = .ok (wordOfBytes (s.byteAt s.pc.toNat) (s.byteAt (s.pc.toNat + 1))) := by
  rw [State.fetchWord, s.memRead_ok (by omega)]
  simp only [s.memRead_ok (a := s.pc.toNat + 1) (by omega)]

/-- A fetch that leaves the address space is fatal at the first address outside it (R121). -/
theorem State.fetchWord_error (s : State) (h : 4095 ≤ s.pc.toNat) :
    s.fetchWord = .error (.memOutOfBounds (max s.pc.toNat 4096)) := by
  by_cases h' : 4096 ≤ s.pc.toNat
  · rw [State.fetchWord, State.memRead_eq, if_pos h', Nat.max_eq_left h']
  · rw [State.fetchWord, s.memRead_ok (by omega)]
    simp only [State.memRead_eq]
    rw [if_pos (by omega), show max s.pc.toNat 4096 = s.pc.toNat + 1 by omega]

/-! ## The stack -/

@[simp] theorem State.pop_empty (s : State) (h : s.stack = []) : s.pop = none := by
  simp [State.pop, h]

@[simp] theorem State.pop_push (s : State) (v : Word) : (s.push v).pop = some (v, s) := by
  simp [State.pop, State.push, State.setStack]

theorem State.pop_concat (s : State) {st : List Word} {v : Word} (h : s.stack = st ++ [v]) :
    s.pop = some (v, s.setStack st) := by
  simp [State.pop, h]

/-! ## The decoder's words as bytes -/

theorem wordOfBytes_high_low (w : Word) : wordOfBytes (highByte w) (lowByte w) = w := by
  apply BitVec.eq_of_getLsbD_eq
  intro i hi
  simp only [wordOfBytes, highByte, lowByte, BitVec.getLsbD_append, BitVec.getLsbD_extractLsb']
  by_cases h : i < 8
  · simp [h]
  · have : i - 8 < 8 := by omega
    simp [h, this, show 8 + (i - 8) = i by omega]

end Sys2Proof.Machine
end

