-- ==== Sys2Proof/Laws/Display.lean ====
section
/-! SUPPORT. The rasterizer: what each cell and the collision bit are after a draw. -/

namespace Sys2Proof.Machine

/-! ## Cells -/

theorem Framebuffer.cell_of_lt (f : Framebuffer) {y x : Nat} (hy : y < 32) (hx : x < 64) :
    Framebuffer.cell f y x = f[y][x] := by
  simp only [Framebuffer.cell]
  rw [dif_pos ⟨hy, hx⟩]

theorem Framebuffer.cell_outside (f : Framebuffer) {y x : Nat} (h : ¬ (y < 32 ∧ x < 64)) :
    Framebuffer.cell f y x = false := by
  simp only [Framebuffer.cell]
  rw [dif_neg h]

/-- Two framebuffers with the same cells are the same. -/
theorem Framebuffer.ext_cell {f g : Framebuffer}
    (h : ∀ y x, Framebuffer.cell f y x = Framebuffer.cell g y x) : f = g := by
  apply Vector.ext
  intro y hy
  apply Vector.ext
  intro x hx
  have := h y x
  rwa [Framebuffer.cell_of_lt f hy hx, Framebuffer.cell_of_lt g hy hx] at this

@[simp] theorem Framebuffer.cell_blank (y x : Nat) :
    Framebuffer.cell Framebuffer.blank y x = false := by
  by_cases h : y < 32 ∧ x < 64
  · rw [Framebuffer.cell_of_lt _ h.1 h.2]; simp [Framebuffer.blank]
  · exact Framebuffer.cell_outside _ h

theorem Framebuffer.cell_toggle (f : Framebuffer) (y x r q : Nat) :
    Framebuffer.cell (Framebuffer.toggle f y x) r q =
      (Framebuffer.cell f r q ^^ decide (r = y ∧ q = x ∧ y < 32 ∧ x < 64)) := by
  by_cases hg : y < 32 ∧ x < 64
  · have ht : Framebuffer.toggle f y x = f.set y (f[y].set x (!f[y][x])) := dif_pos hg
    by_cases hin : r < 32 ∧ q < 64
    · rw [ht, Framebuffer.cell_of_lt _ hin.1 hin.2, Framebuffer.cell_of_lt _ hin.1 hin.2]
      by_cases hr : r = y
      · subst hr
        by_cases hq : q = x
        · subst hq; simp [hg]
        · simp [hq, Ne.symm hq]
      · simp [hr, Ne.symm hr]
    · rw [Framebuffer.cell_outside _ hin, Framebuffer.cell_outside _ hin,
        decide_eq_false (by omega : ¬ (r = y ∧ q = x ∧ y < 32 ∧ x < 64))]
      rfl
  · have ht : Framebuffer.toggle f y x = f := dif_neg hg
    rw [ht, decide_eq_false (by omega : ¬ (r = y ∧ q = x ∧ y < 32 ∧ x < 64)), Bool.xor_false]

/-! ## One bit, one row, all rows -/

theorem Canvas.plot_cell (c : Canvas) (py px r q : Nat) (bit : Bool) :
    Framebuffer.cell (c.plot py px bit).fb r q =
      (Framebuffer.cell c.fb r q ^^ (bit && decide (r = py ∧ q = px ∧ py < 32 ∧ px < 64))) := by
  simp only [Canvas.plot]
  split
  · next h => simp only [Framebuffer.cell_toggle, h.2.2, Bool.true_and]
  · next h =>
    by_cases hb : bit = true
    · have : ¬ (r = py ∧ q = px ∧ py < 32 ∧ px < 64) := fun hc => h ⟨hc.2.2.1, hc.2.2.2, hb⟩
      simp [this]
    · simp [hb]

theorem Canvas.plot_collision (c : Canvas) (py px : Nat) (bit : Bool) :
    (c.plot py px bit).collision = true ↔ c.collision = true ∨
      (py < 32 ∧ px < 64 ∧ bit = true ∧ Framebuffer.cell c.fb py px = true) := by
  simp only [Canvas.plot]
  split
  · next h => simp [h]
  · next h =>
    constructor
    · exact Or.inl
    · rintro (hc | hc)
      · exact hc
      · exact absurd ⟨hc.1, hc.2.1, hc.2.2.1⟩ h

/-- The first `n` bits of a sprite row. -/
theorem Canvas.plotBits_spec (c : Canvas) (py vx : Nat) (b : Byte) (n : Nat) :
    (∀ r q, Framebuffer.cell ((List.range n).foldl
        (fun acc k => acc.plot py (vx + k) (spriteBit b k)) c).fb r q =
      (Framebuffer.cell c.fb r q ^^
        (decide (r = py ∧ vx ≤ q ∧ q < vx + n ∧ py < 32 ∧ q < 64) && spriteBit b (q - vx)))) ∧
    (((List.range n).foldl (fun acc k => acc.plot py (vx + k) (spriteBit b k)) c).collision = true ↔
      c.collision = true ∨ ∃ k, k < n ∧ py < 32 ∧ vx + k < 64 ∧ spriteBit b k = true ∧
        Framebuffer.cell c.fb py (vx + k) = true) := by
  induction n with
  | zero =>
    refine ⟨fun r q => ?_, by simp⟩
    rw [decide_eq_false (by omega : ¬ (r = py ∧ vx ≤ q ∧ q < vx + 0 ∧ py < 32 ∧ q < 64))]
    simp
  | succ n ih =>
    rw [List.range_succ, List.foldl_append]
    simp only [List.foldl_cons, List.foldl_nil]
    refine ⟨fun r q => ?_, ?_⟩
    · rw [Canvas.plot_cell, ih.1]
      by_cases hq : q = vx + n
      · subst hq
        have h1 : ¬ (r = py ∧ vx ≤ vx + n ∧ vx + n < vx + n ∧ py < 32 ∧ vx + n < 64) := by omega
        have h2 : (r = py ∧ vx ≤ vx + n ∧ vx + n < vx + (n + 1) ∧ py < 32 ∧ vx + n < 64) ↔
            (r = py ∧ py < 32 ∧ vx + n < 64) := by omega
        simp only [h1, h2, decide_false, Bool.false_and, Bool.xor_false, true_and,
          Nat.add_sub_cancel_left, Bool.and_comm]
      · have h1 : ¬ (r = py ∧ q = vx + n ∧ py < 32 ∧ vx + n < 64) := by omega
        have h2 : (r = py ∧ vx ≤ q ∧ q < vx + (n + 1) ∧ py < 32 ∧ q < 64) ↔
            (r = py ∧ vx ≤ q ∧ q < vx + n ∧ py < 32 ∧ q < 64) := by omega
        simp only [h1, h2, decide_false, Bool.and_false, Bool.xor_false]
    · rw [Canvas.plot_collision, ih.2, ih.1]
      rw [decide_eq_false (by omega :
        ¬ (py = py ∧ vx ≤ vx + n ∧ vx + n < vx + n ∧ py < 32 ∧ vx + n < 64)), Bool.false_and,
        Bool.xor_false]
      constructor
      · rintro ((hc | ⟨k, hk, hrest⟩) | hn)
        · exact Or.inl hc
        · exact Or.inr ⟨k, by omega, hrest⟩
        · exact Or.inr ⟨n, by omega, hn⟩
      · rintro (hc | ⟨k, hk, hrest⟩)
        · exact Or.inl (Or.inl hc)
        · by_cases hkn : k = n
          · subst hkn; exact Or.inr hrest
          · exact Or.inl (Or.inr ⟨k, by omega, hrest⟩)

theorem Canvas.plotRow_cell (c : Canvas) (py vx : Nat) (b : Byte) (r q : Nat) :
    Framebuffer.cell (c.plotRow py vx b).fb r q = (Framebuffer.cell c.fb r q ^^
      (decide (r = py ∧ vx ≤ q ∧ q < vx + 8 ∧ py < 32 ∧ q < 64) && spriteBit b (q - vx))) :=
  (Canvas.plotBits_spec c py vx b 8).1 r q

theorem Canvas.plotRow_collision (c : Canvas) (py vx : Nat) (b : Byte) :
    (c.plotRow py vx b).collision = true ↔ c.collision = true ∨
      ∃ k, k < 8 ∧ py < 32 ∧ vx + k < 64 ∧ spriteBit b k = true ∧
        Framebuffer.cell c.fb py (vx + k) = true :=
  (Canvas.plotBits_spec c py vx b 8).2

theorem spriteBit_lt {b : Byte} {k : Nat} (h : spriteBit b k = true) : k < 8 := by
  simp only [spriteBit, Bool.and_eq_true, decide_eq_true_eq] at h
  exact h.1

theorem spriteCovers_nil (vx vy r q : Nat) : spriteCovers [] vx vy r q = false := by
  simp only [spriteCovers, List.length_nil]
  rw [decide_eq_false (by omega), Bool.false_and]

/-- A sprite's first row and the rest of it cover a cell in turn. -/
theorem spriteCovers_cons (b : Byte) (bs : List Byte) (vx vy r q : Nat) :
    spriteCovers (b :: bs) vx vy r q =
      ((decide (r = vy ∧ vx ≤ q ∧ q < vx + 8 ∧ vy < 32 ∧ q < 64) && spriteBit b (q - vx)) ^^
        spriteCovers bs vx (vy + 1) r q) := by
  by_cases hr : r = vy
  · subst hr
    have h2 : ¬ (r < 32 ∧ q < 64 ∧ r + 1 ≤ r ∧ r < r + 1 + bs.length ∧ vx ≤ q) := by omega
    simp only [spriteCovers, h2, decide_false, Bool.false_and, Bool.xor_false, Nat.sub_self,
      List.getD_cons_zero, List.length_cons]
    cases hb : spriteBit b (q - vx) with
    | false => simp
    | true =>
      have := spriteBit_lt hb
      have h3 : (r < 32 ∧ q < 64 ∧ r ≤ r ∧ r < r + (bs.length + 1) ∧ vx ≤ q) ↔
          (r = r ∧ vx ≤ q ∧ q < vx + 8 ∧ r < 32 ∧ q < 64) := by omega
      simp only [h3]
  · have h1 : ¬ (r = vy ∧ vx ≤ q ∧ q < vx + 8 ∧ vy < 32 ∧ q < 64) := by omega
    simp only [spriteCovers, h1, decide_false, Bool.false_and, Bool.false_xor, List.length_cons]
    by_cases hv : vy < r
    · have h2 : (r < 32 ∧ q < 64 ∧ vy ≤ r ∧ r < vy + (bs.length + 1) ∧ vx ≤ q) ↔
          (r < 32 ∧ q < 64 ∧ vy + 1 ≤ r ∧ r < vy + 1 + bs.length ∧ vx ≤ q) := by omega
      have h3 : r - vy = (r - (vy + 1)) + 1 := by omega
      simp only [h2, h3, List.getD_cons_succ]
    · have h2 : ¬ (r < 32 ∧ q < 64 ∧ vy ≤ r ∧ r < vy + (bs.length + 1) ∧ vx ≤ q) := by omega
      have h3 : ¬ (r < 32 ∧ q < 64 ∧ vy + 1 ≤ r ∧ r < vy + 1 + bs.length ∧ vx ≤ q) := by omega
      simp only [h2, h3, decide_false, Bool.false_and]

/-- After all rows every cell is the exclusive or of what it was with the clipped sprite (R202). -/
theorem Canvas.plotRows_cell (c : Canvas) (py vx : Nat) (bs : List Byte) (r q : Nat) :
    Framebuffer.cell (c.plotRows py vx bs).fb r q =
      (Framebuffer.cell c.fb r q ^^ spriteCovers bs vx py r q) := by
  induction bs generalizing c py with
  | nil => rw [spriteCovers_nil, Bool.xor_false]; rfl
  | cons b bs ih =>
    rw [Canvas.plotRows, ih, Canvas.plotRow_cell, spriteCovers_cons, Bool.xor_assoc]

/-- After all rows the collision bit is set iff it was, or some cell was set in both (R204). -/
theorem Canvas.plotRows_collision (c : Canvas) (py vx : Nat) (bs : List Byte) :
    (c.plotRows py vx bs).collision = true ↔ c.collision = true ∨
      ∃ r q, spriteCovers bs vx py r q = true ∧ Framebuffer.cell c.fb r q = true := by
  induction bs generalizing c py with
  | nil => simp [Canvas.plotRows, spriteCovers_nil]
  | cons b bs ih =>
    rw [Canvas.plotRows, ih, Canvas.plotRow_collision]
    have below : ∀ {r q}, spriteCovers bs vx (py + 1) r q = true → r ≠ py := by
      intro r q h
      simp only [spriteCovers, Bool.and_eq_true, decide_eq_true_eq] at h
      omega
    constructor
    · rintro ((hc | ⟨k, hk, hpy, hpx, hb, hcell⟩) | ⟨r, q, hcov, hcell⟩)
      · exact Or.inl hc
      · refine Or.inr ⟨py, vx + k, ?_, hcell⟩
        rw [spriteCovers_cons]
        have h1 : (py = py ∧ vx ≤ vx + k ∧ vx + k < vx + 8 ∧ py < 32 ∧ vx + k < 64) := by omega
        have h2 : spriteCovers bs vx (py + 1) py (vx + k) = false := by
          cases hs : spriteCovers bs vx (py + 1) py (vx + k) with
          | false => rfl
          | true => exact absurd rfl (below hs)
        rw [h2, Nat.add_sub_cancel_left, hb]
        simp [h1]
      · refine Or.inr ⟨r, q, ?_, ?_⟩
        · rw [spriteCovers_cons, hcov]
          simp [below hcov]
        · rw [Canvas.plotRow_cell] at hcell
          simpa [below hcov] using hcell
    · rintro (hc | ⟨r, q, hcov, hcell⟩)
      · exact Or.inl (Or.inl hc)
      · by_cases hr : r = py
        · subst hr
          have h2 : spriteCovers bs vx (r + 1) r q = false := by
            cases hs : spriteCovers bs vx (r + 1) r q with
            | false => rfl
            | true => exact absurd rfl (below hs)
          rw [spriteCovers_cons, h2, Bool.xor_false, Bool.and_eq_true, decide_eq_true_eq] at hcov
          obtain ⟨⟨-, hvx, hq8, h32, h64⟩, hb⟩ := hcov
          refine Or.inl (Or.inr ⟨q - vx, by omega, h32, by omega, hb, ?_⟩)
          rwa [show vx + (q - vx) = q by omega]
        · have h1 : ¬ (r = py ∧ vx ≤ q ∧ q < vx + 8 ∧ py < 32 ∧ q < 64) := by omega
          rw [spriteCovers_cons] at hcov
          simp only [h1, decide_false, Bool.false_and, Bool.false_xor] at hcov
          refine Or.inr ⟨r, q, hcov, ?_⟩
          rw [Canvas.plotRow_cell]
          simpa [h1] using hcell

/-! ## The whole draw -/

/-- `Draw` is the cell-wise exclusive or of the framebuffer with the clipped sprite (R202). -/
theorem drawSprite_cell (f : Framebuffer) (vx vy : Nat) (sprite : List Byte) (r q : Nat) :
    Framebuffer.cell (drawSprite f vx vy sprite).fb r q =
      (Framebuffer.cell f r q ^^ spriteCovers sprite vx vy r q) :=
  Canvas.plotRows_cell _ vy vx sprite r q

/-- Its result is 1 iff some cell was 1 in both (R202, R204). -/
theorem drawSprite_collision (f : Framebuffer) (vx vy : Nat) (sprite : List Byte) :
    (drawSprite f vx vy sprite).collision = true ↔
      ∃ r q, spriteCovers sprite vx vy r q = true ∧ Framebuffer.cell f r q = true := by
  rw [drawSprite, Canvas.plotRows_collision]
  simp

end Sys2Proof.Machine
end

