-- ==== Sys2Proof/Laws/Exec.lean ====
section
/-! SUPPORT. What the meanings that reach memory answer, in and out of bounds, and what one tick and one step can do. -/

namespace Sys2Proof.Machine

/-! ## bcd, store-regs, load-regs, draw -/

@[simp] theorem length_decimalDigits (v : Byte) : (decimalDigits v).length = 3 := rfl

@[simp] theorem State.length_regsUpTo (s : State) (x : Reg) : (s.regsUpTo x).length = x.val + 1 := by
  have := x.isLt
  simp only [State.regsUpTo, List.length_take, Vector.length_toList]
  omega

theorem State.getD_regsUpTo (s : State) {x r : Reg} (h : r ≤ x) (d : Byte) :
    (s.regsUpTo x).getD r.val d = s.reg r := by
  have hx := x.isLt
  have hr : r.val < x.val + 1 := Nat.lt_succ_of_le h
  simp [State.regsUpTo, State.reg, hr]

theorem execBcd_ok {x : Reg} {s : State} (h : s.cursor + 2 < 4096) :
    execBcd x s = .next (s.setMem (Memory.writeAll s.mem s.cursor (decimalDigits (s.reg x)))) := by
  rw [execBcd, s.storeBytes_ok (by rw [length_decimalDigits]; omega)]
  rfl

theorem execBcd_error {x : Reg} {s : State} (h : 4096 ≤ s.cursor + 2) :
    execBcd x s = .fault (.memOutOfBounds (max s.cursor 4096)) := by
  rw [execBcd, s.storeBytes_error (by simp [decimalDigits]) (by rw [length_decimalDigits]; omega)]
  rfl

theorem execStoreRegs_ok {x : Reg} {s : State} (h : s.cursor + x.val < 4096) :
    execStoreRegs x s = .next (s.setMem (Memory.writeAll s.mem s.cursor (s.regsUpTo x))) := by
  rw [execStoreRegs, s.storeBytes_ok (by rw [State.length_regsUpTo]; omega)]
  rfl

theorem execStoreRegs_error {x : Reg} {s : State} (h : 4096 ≤ s.cursor + x.val) :
    execStoreRegs x s = .fault (.memOutOfBounds (max s.cursor 4096)) := by
  rw [execStoreRegs, s.storeBytes_error
    (by intro hn; have := congrArg List.length hn; simp at this)
    (by rw [State.length_regsUpTo]; omega)]
  rfl

theorem execLoadRegs_ok {x : Reg} {s : State} (h : s.cursor + x.val < 4096) :
    execLoadRegs x s =
      .next (s.setRegsFrom0 ((List.range (x.val + 1)).map fun k => s.byteAt (s.cursor + k))) := by
  rw [execLoadRegs, s.loadBytes_ok (by omega)]
  rfl

theorem execLoadRegs_error {x : Reg} {s : State} (h : 4096 ≤ s.cursor + x.val) :
    execLoadRegs x s = .fault (.memOutOfBounds (max s.cursor 4096)) := by
  rw [execLoadRegs, s.loadBytes_error (by omega) (by omega)]
  rfl

/-- A draw in bounds: the rasterizer on the bytes at `I`, the collision in the flag register. -/
theorem execDraw_ok {x y : Reg} {n : Nibble} {s : State} (h : s.cursor + n.toNat ≤ 4096) :
    execDraw x y n s = .next
      ((s.setFb (drawSprite s.fb ((s.reg x).toNat % 64) ((s.reg y).toNat % 32) (spriteAt s n)).fb).setReg
        flagReg (flagByte
          (drawSprite s.fb ((s.reg x).toNat % 64) ((s.reg y).toNat % 32) (spriteAt s n)).collision)) := by
  rw [execDraw, s.readSlice_ok h]
  rfl

theorem execDraw_error {x y : Reg} {n : Nibble} {s : State} (h : 4096 < s.cursor + n.toNat) :
    execDraw x y n s = .fault (.memOutOfBounds (max s.cursor 4096)) := by
  rw [execDraw, s.readSlice_error h]
  rfl

/-! ## One tick -/

/-- A tick of a running core that can fetch runs the fetched word (R120). -/
theorem tick_fetched {s : State} (hr : s.run = .running) (hpc : s.pc.toNat < 4095) :
    tick s = runWord (wordAtPc s) s.advance := by
  unfold tick
  rw [hr, s.fetchWord_ok hpc]
  rfl

/-- A tick of a running core that cannot fetch is fatal (R121). -/
theorem tick_unfetched {s : State} (hr : s.run = .running) (hpc : 4095 ≤ s.pc.toNat) :
    tick s = .fault (.memOutOfBounds (max s.pc.toNat 4096)) := by
  unfold tick
  rw [hr, s.fetchWord_error hpc]
  rfl

/-- Everything a tick that answers a next state can have done (R120, R125, R127). -/
theorem tick_next {s t : State} (h : tick s = .next t) :
    (s.run = .fatal ∧ t = s.clearReport) ∨
    (s.run = .running ∧ s.pc.toNat < 4095 ∧
      ((∃ i, decodeWord (wordAtPc s) = some i ∧ exec i s.advance = .next t) ∨
        (decodeWord (wordAtPc s) = none ∧
          t = s.advance.report (.invalidInstruction (wordAtPc s))))) := by
  cases hr : s.run with
  | fatal =>
    simp only [tick, hr, Host.Outcome.next.injEq] at h
    exact Or.inl ⟨rfl, h.symm⟩
  | running =>
    refine Or.inr ⟨rfl, ?_⟩
    by_cases hpc : s.pc.toNat < 4095
    · refine ⟨hpc, ?_⟩
      rw [tick_fetched hr hpc] at h
      unfold runWord at h
      cases hd : decodeWord (wordAtPc s) with
      | some i => rw [hd] at h; exact Or.inl ⟨i, rfl, h⟩
      | none => rw [hd] at h; cases h; exact Or.inr ⟨rfl, rfl⟩
    · rw [tick_unfetched hr (by omega)] at h
      cases h

/-! ## One step -/

@[simp] theorem nextInSchedule_ticks : nextInSchedule .ticks = (.tick, .ticks) := rfl

@[simp] theorem nextInSchedule_free (n : Nat) :
    nextInSchedule (.free n) = (Config.environmentEvent n, .free (n + 1)) := rfl

@[simp] theorem nextInSchedule_cons (e : Event) (rest : Schedule) :
    nextInSchedule (.cons e rest) = (e, rest) := rfl

@[simp] theorem scheduleFirst_nil (rest : Schedule) : scheduleFirst [] rest = rest := rfl

@[simp] theorem scheduleFirst_cons (e : Event) (es : List Event) (rest : Schedule) :
    scheduleFirst (e :: es) rest = .cons e (scheduleFirst es rest) := rfl

/-- A step that comes to a tick is that tick, in the state without it. -/
theorem step_of_aboutToTick {s : State} (h : AboutToTick s) :
    step s = tick { s with schedule := afterNext s } := by
  simp only [step, nextEvent, h.2, Machine.apply, afterNext]

/-- Everything a step that answers a next state can have done (R7): one of the five events, in the state
without it. -/
theorem step_next {s t : State} (h : step s = .next t) :
    t = resetEvent { s with schedule := afterNext s } ∨
    (∃ image, loadProgram image { s with schedule := afterNext s } = .next t) ∨
    tick { s with schedule := afterNext s } = .next t ∨
    t = tickTimers { s with schedule := afterNext s } ∨
    (∃ p, t = setKeysEvent p { s with schedule := afterNext s }) := by
  unfold step nextEvent at h
  cases he : (nextInSchedule s.schedule).1 with
  | reset => rw [he] at h; cases h; exact Or.inl rfl
  | loadProgram image => rw [he] at h; exact Or.inr (Or.inl ⟨image, h⟩)
  | tick => rw [he] at h; exact Or.inr (Or.inr (Or.inl h))
  | tickTimers => rw [he] at h; cases h; exact Or.inr (Or.inr (Or.inr (Or.inl rfl)))
  | setKeys p => rw [he] at h; cases h; exact Or.inr (Or.inr (Or.inr (Or.inr ⟨p, rfl⟩)))

/-! ## Runs -/

/-- A run whose first step answers a next state goes on from there. -/
theorem run_succ (M : Host.Core) {k : Nat} {s t : M.State} (h : M.step s = .next t) :
    M.run (k + 1) s = M.run k t := by
  rw [Host.Core.run.eq_def]
  simp only [h]

theorem core_run_succ {k : Nat} {s t : State} (h : step s = .next t) :
    Host.Core.run Sys2Proof.core (k + 1) s = Host.Core.run Sys2Proof.core k t :=
  run_succ Sys2Proof.core h

end Sys2Proof.Machine
end

