-- ==== Sys2Proof/Laws/PerInstr.lean ====
section
/-! SUPPORT. Statements about every instruction as syntax, one lemma per constructor. The family
`TableRow`: an instruction's word selects a row of the opcode map, and that row's fields cut out of the
word give the instruction back (spec/30_encoding.md R91, R94). -/

namespace Sys2Proof.Laws.TableRow

/-- The instruction's word selects a row of the opcode map that builds the instruction. -/
def Statement (i : Instr) : Prop :=
  ∃ r ∈ opcodeRows, r.selects (encode i) = true ∧ r.build (encode i) = i

/-- The row at position `k` of the opcode map, given what its mask keeps and what it builds. -/
theorem of_row {i : Instr} (k : Nat) (hk : k < opcodeRows.length)
    (hs : encode i &&& opcodeRows[k].mask = opcodeRows[k].bits)
    (hb : opcodeRows[k].build (encode i) = i) : Statement i :=
  ⟨opcodeRows[k], List.getElem_mem hk, by simp [OpcodeRow.selects, hs], hb⟩

theorem clearScreen : Statement .clearScreen :=
  of_row 0 (by decide) rfl rfl

theorem ret : Statement .ret :=
  of_row 1 (by decide) rfl rfl

theorem jump (nnn : Addr12) : Statement (.jump nnn) :=
  of_row 2 (by decide) (maskOp_packNNN _ nnn)
    (congrArg Instr.jump (fieldNNN_pack _ nnn))

theorem call (nnn : Addr12) : Statement (.call nnn) :=
  of_row 3 (by decide) (maskOp_packNNN _ nnn)
    (congrArg Instr.call (fieldNNN_pack _ nnn))

theorem skipEq (x : Reg) (nn : Byte) : Statement (.skipEq x nn) :=
  of_row 4 (by decide) (maskOp_pack8 _ _ nn)
    (congr (congrArg Instr.skipEq (regX_pack8 _ x nn)) (fieldNN_pack8 _ _ nn))

theorem skipNeq (x : Reg) (nn : Byte) : Statement (.skipNeq x nn) :=
  of_row 5 (by decide) (maskOp_pack8 _ _ nn)
    (congr (congrArg Instr.skipNeq (regX_pack8 _ x nn)) (fieldNN_pack8 _ _ nn))

theorem skipEqReg (x y : Reg) : Statement (.skipEqReg x y) :=
  of_row 6 (by decide) (maskOpN_pack44 _ _ _ _)
    (congr (congrArg Instr.skipEqReg (regX_pack44 _ x _ _)) (regY_pack44 _ _ y _))

theorem loadImm (x : Reg) (nn : Byte) : Statement (.loadImm x nn) :=
  of_row 7 (by decide) (maskOp_pack8 _ _ nn)
    (congr (congrArg Instr.loadImm (regX_pack8 _ x nn)) (fieldNN_pack8 _ _ nn))

theorem addImm (x : Reg) (nn : Byte) : Statement (.addImm x nn) :=
  of_row 8 (by decide) (maskOp_pack8 _ _ nn)
    (congr (congrArg Instr.addImm (regX_pack8 _ x nn)) (fieldNN_pack8 _ _ nn))

theorem move (x y : Reg) : Statement (.move x y) :=
  of_row 9 (by decide) (maskOpN_pack44 _ _ _ _)
    (congr (congrArg Instr.move (regX_pack44 _ x _ _)) (regY_pack44 _ _ y _))

theorem or (x y : Reg) : Statement (.or x y) :=
  of_row 10 (by decide) (maskOpN_pack44 _ _ _ _)
    (congr (congrArg Instr.or (regX_pack44 _ x _ _)) (regY_pack44 _ _ y _))

theorem and (x y : Reg) : Statement (.and x y) :=
  of_row 11 (by decide) (maskOpN_pack44 _ _ _ _)
    (congr (congrArg Instr.and (regX_pack44 _ x _ _)) (regY_pack44 _ _ y _))

theorem xor (x y : Reg) : Statement (.xor x y) :=
  of_row 12 (by decide) (maskOpN_pack44 _ _ _ _)
    (congr (congrArg Instr.xor (regX_pack44 _ x _ _)) (regY_pack44 _ _ y _))

theorem add (x y : Reg) : Statement (.add x y) :=
  of_row 13 (by decide) (maskOpN_pack44 _ _ _ _)
    (congr (congrArg Instr.add (regX_pack44 _ x _ _)) (regY_pack44 _ _ y _))

theorem sub (x y : Reg) : Statement (.sub x y) :=
  of_row 14 (by decide) (maskOpN_pack44 _ _ _ _)
    (congr (congrArg Instr.sub (regX_pack44 _ x _ _)) (regY_pack44 _ _ y _))

theorem subn (x y : Reg) : Statement (.subn x y) :=
  of_row 15 (by decide) (maskOpN_pack44 _ _ _ _)
    (congr (congrArg Instr.subn (regX_pack44 _ x _ _)) (regY_pack44 _ _ y _))

theorem shr (x y : Reg) : Statement (.shr x y) :=
  of_row 16 (by decide) (maskOpN_pack44 _ _ _ _)
    (congr (congrArg Instr.shr (regX_pack44 _ x _ _)) (regY_pack44 _ _ y _))

theorem shl (x y : Reg) : Statement (.shl x y) :=
  of_row 17 (by decide) (maskOpN_pack44 _ _ _ _)
    (congr (congrArg Instr.shl (regX_pack44 _ x _ _)) (regY_pack44 _ _ y _))

theorem skipNeqReg (x y : Reg) : Statement (.skipNeqReg x y) :=
  of_row 18 (by decide) (maskOpN_pack44 _ _ _ _)
    (congr (congrArg Instr.skipNeqReg (regX_pack44 _ x _ _)) (regY_pack44 _ _ y _))

theorem loadIndex (nnn : Addr12) : Statement (.loadIndex nnn) :=
  of_row 19 (by decide) (maskOp_packNNN _ nnn)
    (congrArg Instr.loadIndex (fieldNNN_pack _ nnn))

theorem jumpOffset (nnn : Addr12) : Statement (.jumpOffset nnn) :=
  of_row 20 (by decide) (maskOp_packNNN _ nnn)
    (congrArg Instr.jumpOffset (fieldNNN_pack _ nnn))

theorem random (x : Reg) (nn : Byte) : Statement (.random x nn) :=
  of_row 21 (by decide) (maskOp_pack8 _ _ nn)
    (congr (congrArg Instr.random (regX_pack8 _ x nn)) (fieldNN_pack8 _ _ nn))

theorem draw (x y : Reg) (n : Nibble) : Statement (.draw x y n) :=
  of_row 22 (by decide) (maskOp_pack44 _ _ _ n)
    (congr (congr (congrArg Instr.draw (regX_pack44 _ x _ n)) (regY_pack44 _ _ y n)) (fieldN_pack44 _ _ _ n))

theorem skipKeyPressed (x : Reg) : Statement (.skipKeyPressed x) :=
  of_row 23 (by decide) (maskOpLow_pack8 _ _ _)
    (congrArg Instr.skipKeyPressed (regX_pack8 _ x _))

theorem skipKeyNotPressed (x : Reg) : Statement (.skipKeyNotPressed x) :=
  of_row 24 (by decide) (maskOpLow_pack8 _ _ _)
    (congrArg Instr.skipKeyNotPressed (regX_pack8 _ x _))

theorem loadDelay (x : Reg) : Statement (.loadDelay x) :=
  of_row 25 (by decide) (maskOpLow_pack8 _ _ _)
    (congrArg Instr.loadDelay (regX_pack8 _ x _))

theorem setDelay (x : Reg) : Statement (.setDelay x) :=
  of_row 26 (by decide) (maskOpLow_pack8 _ _ _)
    (congrArg Instr.setDelay (regX_pack8 _ x _))

theorem setSound (x : Reg) : Statement (.setSound x) :=
  of_row 27 (by decide) (maskOpLow_pack8 _ _ _)
    (congrArg Instr.setSound (regX_pack8 _ x _))

theorem addIndex (x : Reg) : Statement (.addIndex x) :=
  of_row 28 (by decide) (maskOpLow_pack8 _ _ _)
    (congrArg Instr.addIndex (regX_pack8 _ x _))

theorem getKey (x : Reg) : Statement (.getKey x) :=
  of_row 29 (by decide) (maskOpLow_pack8 _ _ _)
    (congrArg Instr.getKey (regX_pack8 _ x _))

theorem fontAddress (x : Reg) : Statement (.fontAddress x) :=
  of_row 30 (by decide) (maskOpLow_pack8 _ _ _)
    (congrArg Instr.fontAddress (regX_pack8 _ x _))

theorem bcd (x : Reg) : Statement (.bcd x) :=
  of_row 31 (by decide) (maskOpLow_pack8 _ _ _)
    (congrArg Instr.bcd (regX_pack8 _ x _))

theorem storeRegs (x : Reg) : Statement (.storeRegs x) :=
  of_row 32 (by decide) (maskOpLow_pack8 _ _ _)
    (congrArg Instr.storeRegs (regX_pack8 _ x _))

theorem loadRegs (x : Reg) : Statement (.loadRegs x) :=
  of_row 33 (by decide) (maskOpLow_pack8 _ _ _)
    (congrArg Instr.loadRegs (regX_pack8 _ x _))

end Sys2Proof.Laws.TableRow
end

