-- ==== Sys2Proof/Tests/Slice0.lean ====
section
/-! SUPPORT. Tests on fixed values: the expected results are those of spec/95_test_vectors.md (V, S and P numbers)
and of the encodings of spec/30_encoding.md R94. At the end, for each obligation with hypotheses, a witness that
meets all of them. -/

namespace Sys2Proof.Tests
open Sys2Proof Sys2Proof.Machine

/-! ## Helpers -/

/-- The outcome is a next state with the property. -/
def nextIs (o : Host.Outcome State Fault Refusal) (p : State → Bool) : Bool :=
  match o with
  | .next t    => p t
  | .fault _   => false
  | .refused _ => false

/-- Reset, with ticks alone to come. -/
def start : State := { State.reset with schedule := .ticks }

/-- That, with some registers set. -/
def withRegs (vs : List (Reg × Byte)) : State :=
  vs.foldl (fun s rv => s.setReg rv.1 rv.2) start

/-- The state with bytes written from an address on. -/
def withBytes (a : Nat) (bs : List Byte) (s : State) : State :=
  s.setMem (Memory.writeAll s.mem a bs)

/-- The state with a word at 0x200, the reset pc. -/
def atBoot (w : Word) (s : State) : State := s.placeWord 0x200 w

/-- A snapshot with the listed keys down. -/
def pressed (ks : List (Fin 16)) : Vector Bool 16 := Vector.ofFn fun k => decide (k ∈ ks)

/-- The cells of one row that are set among the columns given. -/
def rowSet (f : Framebuffer) (y : Nat) (cols : List Nat) : List Nat :=
  cols.filter fun x => Framebuffer.cell f y x

/-! ## WellFormed: an ill-formed value for each check -/

theorem test_reg_16_refused : regInRange 16 = false ∧ regInRange 15 = true := by decide
theorem test_n_16_refused : immInRange 4 16 = false ∧ immInRange 4 15 = true := by decide
theorem test_nn_256_refused : immInRange 8 256 = false ∧ immInRange 8 255 = true := by decide
theorem test_nnn_4096_refused : immInRange 12 4096 = false ∧ immInRange 12 4095 = true := by decide
theorem test_wellFormed_extremes :
    Instr.wellFormed (.draw 15 15 0xF#4) = true ∧ Instr.wellFormed (.jump 0xFFF#12) = true ∧
    Instr.wellFormed (.random 15 0xFF#8) = true := by decide

/-! ## Decode: words written out bit by bit from the patterns of R94 -/

theorem test_decode_family_0 :
    decodeWord 0b0000000011100000#16 = some .clearScreen ∧
    decodeWord 0b0000000011101110#16 = some .ret := by decide

theorem test_decode_jump_call :
    decodeWord 0b0001101010111100#16 = some (.jump 0xABC#12) ∧
    decodeWord 0b0010001100000000#16 = some (.call 0x300#12) := by decide

theorem test_decode_skips :
    decodeWord 0b0011000100000101#16 = some (.skipEq 1 0x05#8) ∧
    decodeWord 0b0100111110000001#16 = some (.skipNeq 15 0x81#8) ∧
    decodeWord 0b0101000100100000#16 = some (.skipEqReg 1 2) ∧
    decodeWord 0b1001111000010000#16 = some (.skipNeqReg 14 1) := by decide

theorem test_decode_load_add_imm :
    decodeWord 0b0110111110101011#16 = some (.loadImm 15 0xAB#8) ∧
    decodeWord 0b0111000100000010#16 = some (.addImm 1 0x02#8) := by decide

theorem test_decode_family_8_logic :
    decodeWord 0b1000000100100000#16 = some (.move 1 2) ∧
    decodeWord 0b1000000100100001#16 = some (.or 1 2) ∧
    decodeWord 0b1000000100100010#16 = some (.and 1 2) ∧
    decodeWord 0b1000010001000011#16 = some (.xor 4 4) := by decide

theorem test_decode_family_8_arith :
    decodeWord 0b1000000111110100#16 = some (.add 1 15) ∧
    decodeWord 0b1000000100100101#16 = some (.sub 1 2) ∧
    decodeWord 0b1000111100010110#16 = some (.shr 15 1) ∧
    decodeWord 0b1000000100100111#16 = some (.subn 1 2) ∧
    decodeWord 0b1000000100101110#16 = some (.shl 1 2) := by decide

theorem test_decode_families_A_to_D :
    decodeWord 0b1010000100100011#16 = some (.loadIndex 0x123#12) ∧
    decodeWord 0b1011111111111111#16 = some (.jumpOffset 0xFFF#12) ∧
    decodeWord 0b1100000100001111#16 = some (.random 1 0x0F#8) ∧
    decodeWord 0b1101000000010101#16 = some (.draw 0 1 0x5#4) := by decide

theorem test_decode_family_E :
    decodeWord 0b1110000110011110#16 = some (.skipKeyPressed 1) ∧
    decodeWord 0b1110000110100001#16 = some (.skipKeyNotPressed 1) := by decide

theorem test_decode_family_F_timers_keys :
    decodeWord 0b1111000100000111#16 = some (.loadDelay 1) ∧
    decodeWord 0b1111000100001010#16 = some (.getKey 1) ∧
    decodeWord 0b1111000100010101#16 = some (.setDelay 1) ∧
    decodeWord 0b1111000100011000#16 = some (.setSound 1) := by decide

theorem test_decode_family_F_memory :
    decodeWord 0b1111000100011110#16 = some (.addIndex 1) ∧
    decodeWord 0b1111000100101001#16 = some (.fontAddress 1) ∧
    decodeWord 0b1111000100110011#16 = some (.bcd 1) ∧
    decodeWord 0b1111001101010101#16 = some (.storeRegs 3) ∧
    decodeWord 0b1111111101100101#16 = some (.loadRegs 15) := by decide

/-- V2, V3, V4. -/
theorem test_invalid_words_decode_to_nothing :
    ([0x0000, 0x5121, 0x8128, 0x8129, 0x812F, 0xE100, 0xF1FF, 0x0123].map
      fun w => decodeWord (BitVec.ofNat 16 w)) = List.replicate 8 none := by decide

/-- R90, R64: two bytes, the high one first; one byte is no instruction. -/
theorem test_decode_bytes :
    decode [0xA1#8, 0x23#8, 0x77#8] = .ok (.loadIndex 0x123#12, [0x77#8]) ∧
    decode [0x00#8, 0x00#8] = .error (.invalidInstruction 0x0000#16) ∧
    decode [0x12#8] = .error .truncated := ⟨rfl, rfl, rfl⟩

theorem test_encode_words :
    encode (.draw 10 11 0x2#4) = 0xDAB2#16 ∧ encodeBytes (.call 0x210#12) = [0x22#8, 0x10#8] ∧
    encode (.shl 15 15) = 0x8FFE#16 := by decide

theorem test_decodeTableWord :
    decodeTableWord 16 0x00EE = some .ret ∧ decodeTableWord 16 0x6FAB = some (.loadImm 15 0xAB#8) ∧
    decodeTableWord 16 0x5121 = none := by decide

theorem test_withFetchWord_runs :
    nextIs (step (State.reset.withFetchWord 16 0x6FAB)) (fun t => t.reg 15 == 0xAB#8) = true := by decide

/-! ## Fetch, tick, events -/

/-- V1. -/
theorem test_fetch_big_endian :
    nextIs (step (withBytes 0x200 [0x12#8, 0x34#8] start)) (fun t => t.pc == 0x0234#16) = true := by
  decide

/-- V2. -/
theorem test_invalid_word_reported :
    nextIs (step start) (fun t => t.pc == 0x0202#16 &&
      t.errOut == some (.invalidInstruction 0x0000#16)) = true := by decide

/-- V5. -/
theorem test_fetch_last_word :
    nextIs (step (withBytes 0xFFE [0x60#8, 0x01#8] (start.setPc 0x0FFE#16)))
      (fun t => t.pc == 0x1000#16 && t.reg 0 == 1#8) = true := by decide

/-- V6, V7. -/
theorem test_fetch_outside :
    step (start.setPc 0x1000#16) = .fault (.memOutOfBounds 0x1000) ∧
    step (start.setPc 0x0FFF#16) = .fault (.memOutOfBounds 0x1000) := ⟨rfl, rfl⟩

/-- V9. -/
theorem test_fetch_odd_address :
    nextIs (step (withBytes 0x201 [0x6A#8, 0x7B#8] (start.setPc 0x0201#16)))
      (fun t => t.pc == 0x0203#16 && t.reg 10 == 0x7B#8) = true := by decide

/-- V100: one of its four events; V103. -/
theorem test_tick_timers :
    (tickTimers ((start.setDelay 3#8).setSound 1#8)).delay = 2#8 ∧
    (tickTimers ((start.setDelay 3#8).setSound 0#8)).sound = 0#8 ∧
    (tickTimers (start.setDelay 0xFF#8)).delay = 0xFE#8 := by decide

/-- A tick timers event between two ticks of P5: the delay timer counts, the pc stays. -/
theorem test_step_serves_tick_timers :
    nextIs (step { start.setDelay 7#8 with schedule := .cons .tickTimers .ticks })
      (fun t => t.delay == 6#8 && t.pc == 0x0200#16 && t.schedule == .ticks) = true := by decide

/-- V112. -/
theorem test_load_program :
    nextIs (loadProgram [0xA2#8, 0x0A#8, 0x12#8] start)
      (fun t => t.byteAt 0x200 == 0xA2#8 && t.byteAt 0x202 == 0x12#8 && t.byteAt 0x203 == 0#8) = true := by
  decide

/-- V8: nothing but reset acts in FATAL. -/
theorem test_fatal_is_sticky :
    nextIs (tick { start with run := .fatal }) (fun t => t.run == .fatal && t.pc == 0x0200#16) = true := by
  decide

/-- R241: the codes on the error output. -/
theorem test_error_codes :
    errorCode (step (atBoot 0x00EE#16 start)) = 2 ∧
    errorCode (step (start.setPc 0x1000#16)) = 3 := ⟨by decide, rfl⟩

/-! ## Control transfer -/

/-- V10, V11. -/
theorem test_jump :
    nextIs (step (atBoot 0x1ABC#16 start)) (fun t => t.pc == 0x0ABC#16) = true ∧
    nextIs (step (atBoot 0x1200#16 start)) (fun t => t.pc == 0x0200#16) = true := by decide

/-- V12. -/
theorem test_call :
    nextIs (step (atBoot 0x2300#16 start))
      (fun t => t.pc == 0x0300#16 && t.stack == [0x0202#16]) = true := by decide

/-- V13. -/
theorem test_return_pops_last :
    nextIs (step (atBoot 0x00EE#16 (start.setStack [0x0202#16, 0x0456#16])))
      (fun t => t.pc == 0x0456#16 && t.stack == [0x0202#16]) = true := by decide

/-- V14. -/
theorem test_return_empty_reports :
    nextIs (step (atBoot 0x00EE#16 start))
      (fun t => t.pc == 0x0202#16 && t.errOut == some .stackUnderflow) = true := by decide

/-- V15. -/
theorem test_skip_eq :
    nextIs (step (atBoot 0x3105#16 (withRegs [(1, 5#8)]))) (fun t => t.pc == 0x0204#16) = true ∧
    nextIs (step (atBoot 0x3106#16 (withRegs [(1, 5#8)]))) (fun t => t.pc == 0x0202#16) = true := by decide

/-- V16. -/
theorem test_skip_neq :
    nextIs (step (atBoot 0x4105#16 (withRegs [(1, 5#8)]))) (fun t => t.pc == 0x0202#16) = true ∧
    nextIs (step (atBoot 0x4106#16 (withRegs [(1, 5#8)]))) (fun t => t.pc == 0x0204#16) = true := by decide

/-- V17, V18. -/
theorem test_skip_reg :
    nextIs (step (atBoot 0x5120#16 (withRegs [(1, 0x7F#8), (2, 0x7F#8)]))) (fun t => t.pc == 0x0204#16) = true ∧
    nextIs (step (atBoot 0x9330#16 start)) (fun t => t.pc == 0x0202#16) = true := by decide

/-- V19, V19a, V19c. -/
theorem test_jump_offset :
    nextIs (step (atBoot 0xB300#16 (withRegs [(0, 0x10#8)]))) (fun t => t.pc == 0x0310#16) = true ∧
    nextIs (step (atBoot 0xBFFF#16 (withRegs [(0, 0xFF#8)]))) (fun t => t.pc == 0x10FE#16) = true ∧
    nextIs (step (atBoot 0xB234#16 (withRegs [(2, 0x10#8)]))) (fun t => t.pc == 0x0234#16) = true := by decide

/-- V19b: a skip past the last word is no fault of its own. -/
theorem test_skip_at_top :
    nextIs (step (withBytes 0xFFE [0x30#8, 0x00#8] (start.setPc 0x0FFE#16)))
      (fun t => t.pc == 0x1002#16) = true := by decide

/-! ## Load and arithmetic -/

/-- S2, S3, V47. -/
theorem test_imm :
    nextIs (exec (.loadImm 15 0xAB#8) start) (fun t => t.reg 15 == 0xAB#8) = true ∧
    nextIs (exec (.addImm 1 2#8) (withRegs [(1, 0xFF#8), (15, 7#8)]))
      (fun t => t.reg 1 == 1#8 && t.reg 15 == 7#8) = true ∧
    nextIs (exec (.addImm 15 3#8) (withRegs [(15, 0xFE#8)])) (fun t => t.reg 15 == 1#8) = true := by decide

/-- V43, V44, V45. -/
theorem test_logic_and_move :
    nextIs (exec (.or 1 2) (withRegs [(1, 0xF0#8), (2, 0x3C#8), (15, 7#8)]))
      (fun t => t.reg 1 == 0xFC#8 && t.reg 15 == 7#8) = true ∧
    nextIs (exec (.and 1 2) (withRegs [(1, 0xF0#8), (2, 0x3C#8)])) (fun t => t.reg 1 == 0x30#8) = true ∧
    nextIs (exec (.xor 1 2) (withRegs [(1, 0xF0#8), (2, 0x3C#8)])) (fun t => t.reg 1 == 0xCC#8) = true ∧
    nextIs (exec (.move 1 2) (withRegs [(2, 0x3C#8)])) (fun t => t.reg 1 == 0x3C#8) = true := by decide

/-- V20, V22. -/
theorem test_add :
    nextIs (exec (.add 1 2) (withRegs [(1, 0xFF#8), (2, 1#8)]))
      (fun t => t.reg 1 == 0#8 && t.reg 15 == 1#8) = true ∧
    nextIs (exec (.add 3 3) (withRegs [(3, 0x90#8)])) (fun t => t.reg 3 == 0x20#8 && t.reg 15 == 1#8) = true := by
  decide

/-- V24, V25. -/
theorem test_add_flag_register :
    nextIs (exec (.add 15 1) (withRegs [(15, 0xF0#8), (1, 0x20#8)])) (fun t => t.reg 15 == 1#8) = true ∧
    nextIs (exec (.add 1 15) (withRegs [(1, 5#8), (15, 0xFF#8)]))
      (fun t => t.reg 1 == 4#8 && t.reg 15 == 1#8) = true := by decide

/-- V26, V27. -/
theorem test_sub :
    nextIs (exec (.sub 1 2) (withRegs [(1, 5#8), (2, 5#8)])) (fun t => t.reg 1 == 0#8 && t.reg 15 == 1#8) = true ∧
    nextIs (exec (.sub 1 2) (withRegs [(1, 3#8), (2, 5#8)]))
      (fun t => t.reg 1 == 0xFE#8 && t.reg 15 == 0#8) = true := by decide

/-- V30, V31. -/
theorem test_subn :
    nextIs (exec (.subn 1 2) (withRegs [(1, 3#8), (2, 5#8)])) (fun t => t.reg 1 == 2#8 && t.reg 15 == 1#8) = true ∧
    nextIs (exec (.subn 1 2) (withRegs [(1, 5#8), (2, 3#8)]))
      (fun t => t.reg 1 == 0xFE#8 && t.reg 15 == 0#8) = true := by decide

/-- V33, V38. -/
theorem test_shr :
    nextIs (exec (.shr 1 2) (withRegs [(1, 0xAA#8), (2, 5#8)]))
      (fun t => t.reg 1 == 2#8 && t.reg 2 == 5#8 && t.reg 15 == 1#8) = true ∧
    nextIs (exec (.shr 15 1) (withRegs [(1, 2#8)])) (fun t => t.reg 15 == 0#8) = true := by decide

/-- V39, V42. -/
theorem test_shl :
    nextIs (exec (.shl 1 2) (withRegs [(2, 0x81#8)]))
      (fun t => t.reg 1 == 2#8 && t.reg 2 == 0x81#8 && t.reg 15 == 1#8) = true ∧
    nextIs (exec (.shl 15 15) (withRegs [(15, 0x81#8)])) (fun t => t.reg 15 == 1#8) = true := by decide

/-- V49, V50, for whatever byte is drawn. -/
theorem test_random_masks (s : State) :
    execRandom 1 0x00#8 s = .next (s.countDraw.setReg 1 0#8) ∧
    execRandom 1 0xFF#8 s = .next (s.countDraw.setReg 1 (Config.randomByte s.draws)) := by
  have h0 (b : Byte) : b &&& 0x00#8 = 0#8 := BitVec.and_zero
  have h1 (b : Byte) : b &&& 0xFF#8 = b := BitVec.and_allOnes
  exact ⟨by rw [execRandom, h0]; rfl, by rw [execRandom, h1]; rfl⟩

/-! ## Index and memory -/

/-- V51. -/
theorem test_load_index :
    nextIs (exec (.loadIndex 0x123#12) start) (fun t => t.index == 0x0123#16) = true := by decide

/-- V53, V54. -/
theorem test_add_index :
    nextIs (exec (.addIndex 1) ((withRegs [(1, 1#8), (15, 7#8)]).setIndex 0x0FFF#16))
      (fun t => t.index == 0x1000#16 && t.reg 15 == 7#8) = true ∧
    nextIs (exec (.addIndex 1) ((withRegs [(1, 2#8)]).setIndex 0xFFFF#16)) (fun t => t.index == 1#16) = true := by
  decide

/-- V55, V56. -/
theorem test_font_address :
    execFontAddress 1 (withRegs [(1, 0x3A#8)]) =
      .next ((withRegs [(1, 0x3A#8)]).setIndex (BitVec.ofNat 16 (fontBase + 50))) ∧
    execFontAddress 1 (withRegs [(1, 0x0F#8)]) =
      .next ((withRegs [(1, 0x0F#8)]).setIndex (BitVec.ofNat 16 (fontBase + 75))) := ⟨rfl, rfl⟩

/-- V110, S1, S6: glyphs 0 and 5. -/
theorem test_font_bytes :
    fontBytes.length = 80 ∧ fontBytes.take 5 = [0xF0#8, 0x90#8, 0x90#8, 0x90#8, 0xF0#8] ∧
    (fontBytes.drop 25).take 5 = [0xF0#8, 0x80#8, 0xF0#8, 0x10#8, 0xF0#8] := by decide

/-- V57 at 123 and 255, V58. -/
theorem test_bcd :
    nextIs (exec (.bcd 1) ((withRegs [(1, 123#8)]).setIndex 0x300#16))
      (fun t => t.byteAt 0x300 == 1#8 && t.byteAt 0x301 == 2#8 && t.byteAt 0x302 == 3#8) = true ∧
    nextIs (exec (.bcd 1) ((withRegs [(1, 255#8)]).setIndex 0x0FFD#16))
      (fun t => t.byteAt 0xFFD == 2#8 && t.byteAt 0xFFF == 5#8 && t.index == 0x0FFD#16) = true := by decide

/-- V59, V60. -/
theorem test_bcd_outside :
    exec (.bcd 1) (start.setIndex 0x0FFE#16) = .fault (.memOutOfBounds 0x1000) ∧
    exec (.bcd 1) (start.setIndex 0x1000#16) = .fault (.memOutOfBounds 0x1000) :=
  ⟨execBcd_error (by decide), execBcd_error (by decide)⟩

/-- V61, V62. -/
theorem test_store_regs :
    nextIs (exec (.storeRegs 2) ((withRegs [(0, 1#8), (1, 2#8), (2, 3#8), (3, 4#8)]).setIndex 0x400#16))
      (fun t => t.byteAt 0x402 == 3#8 && t.byteAt 0x403 == 0#8 && t.index == 0x0400#16) = true ∧
    nextIs (exec (.storeRegs 15) ((withRegs [(15, 0x5A#8)]).setIndex 0x0FF0#16))
      (fun t => t.byteAt 0xFFF == 0x5A#8) = true := by decide

/-- V63, V66. -/
theorem test_store_load_outside :
    exec (.storeRegs 15) (start.setIndex 0x0FF1#16) = .fault (.memOutOfBounds 0x1000) ∧
    exec (.loadRegs 1) (start.setIndex 0x0FFF#16) = .fault (.memOutOfBounds 0x1000) :=
  ⟨execStoreRegs_error (by decide), execLoadRegs_error (by decide)⟩

/-- V64, V65. -/
theorem test_load_regs :
    nextIs (exec (.loadRegs 2)
        (withBytes 0x300 [2#8, 3#8, 4#8, 5#8] ((withRegs [(3, 0x99#8)]).setIndex 0x300#16)))
      (fun t => t.reg 0 == 2#8 && t.reg 2 == 4#8 && t.reg 3 == 0x99#8) = true ∧
    nextIs (exec (.loadRegs 0) (withBytes 0x300 [0x7E#8, 0x7F#8] (start.setIndex 0x300#16)))
      (fun t => t.reg 0 == 0x7E#8 && t.reg 1 == 0#8) = true := by decide

/-! ## Display -/

/-- A sprite at 0x300 and `I` there. -/
def withSprite (bs : List Byte) (s : State) : State := withBytes 0x300 bs (s.setIndex 0x300#16)

/-- The display with one cell set. -/
def oneCell (y x : Nat) : Framebuffer := Framebuffer.blank.toggle y x

/-- V71: clipped at the right edge, nothing wraps. -/
theorem test_draw_clips_right :
    nextIs (exec (.draw 1 2 1#4) (withSprite [0xFF#8] (withRegs [(1, 60#8), (2, 0#8)])))
      (fun t => rowSet t.fb 0 [0, 1, 59, 60, 61, 62, 63] == [60, 61, 62, 63] && t.reg 15 == 0#8) = true := by
  decide

/-- V73: a cell erased is a collision. -/
theorem test_draw_collision :
    nextIs (exec (.draw 1 1 1#4) (withSprite [0x3C#8] ((withRegs [(1, 0#8)]).setFb (oneCell 0 3))))
      (fun t => rowSet t.fb 0 (List.range 9) == [2, 4, 5] && t.reg 15 == 1#8) = true := by decide

/-- V76: the second row falls below the grid. -/
theorem test_draw_clips_bottom :
    nextIs (exec (.draw 1 2 2#4)
        (withSprite [0x80#8, 0xFF#8] ((withRegs [(1, 63#8), (2, 31#8)]).setFb (oneCell 31 63))))
      (fun t => rowSet t.fb 31 [0, 62, 63] == [] && rowSet t.fb 0 [0, 63] == [] && t.reg 15 == 1#8) = true := by
  decide

/-- V75, V82: the start wraps; the flag register as both coordinates is read before it is written. -/
theorem test_draw_start :
    nextIs (exec (.draw 1 2 1#4) (withSprite [0xA0#8] (withRegs [(1, 69#8), (2, 37#8)])))
      (fun t => rowSet t.fb 5 (List.range 9) == [5, 7]) = true ∧
    nextIs (exec (.draw 15 15 1#4) (withSprite [0x80#8] (withRegs [(15, 2#8)])))
      (fun t => rowSet t.fb 2 (List.range 4) == [2] && t.reg 15 == 0#8) = true := by decide

/-- V78, V79. -/
theorem test_draw_bounds :
    nextIs (exec (.draw 1 1 0#4) ((withRegs [(15, 7#8)]).setIndex 0x1000#16)) (fun t => t.reg 15 == 0#8) = true ∧
    exec (.draw 1 1 2#4) (start.setIndex 0x0FFF#16) = .fault (.memOutOfBounds 0x1000) :=
  ⟨by decide,
   execDraw_error (x := 1) (y := 1) (n := 2#4) (s := start.setIndex 0x0FFF#16) (by decide)⟩

/-- V81. -/
theorem test_clear_screen :
    nextIs (exec .clearScreen ((withRegs [(15, 7#8)]).setFb (oneCell 3 3)))
      (fun t => rowSet t.fb 3 [2, 3, 4] == [] && t.reg 15 == 7#8) = true := by decide

/-! ## Keypad and timers -/

/-- V90, V91. -/
theorem test_skip_key_pressed :
    nextIs (step (atBoot 0xE19E#16 ((withRegs [(1, 0x13#8)]).setKeys (pressed [3])))) (fun t => t.pc == 0x0204#16)
      = true ∧
    nextIs (step (atBoot 0xE19E#16 (withRegs [(1, 0x13#8)]))) (fun t => t.pc == 0x0202#16) = true := by decide

/-- V92. -/
theorem test_skip_key_not_pressed :
    nextIs (step (atBoot 0xE1A1#16 (withRegs [(1, 3#8)]))) (fun t => t.pc == 0x0204#16) = true ∧
    nextIs (step (atBoot 0xE1A1#16 ((withRegs [(1, 3#8)]).setKeys (pressed [3])))) (fun t => t.pc == 0x0202#16)
      = true := by decide

/-- V93, V94. -/
theorem test_get_key :
    nextIs (step (atBoot 0xF10A#16 start)) (fun t => t.pc == 0x0200#16) = true ∧
    nextIs (step (atBoot 0xF10A#16 (start.setKeys (pressed [4, 9]))))
      (fun t => t.reg 1 == 4#8 && t.pc == 0x0202#16) = true := by decide

/-- V95, V96. -/
theorem test_get_key_extremes :
    nextIs (exec (.getKey 1) (start.setKeys (pressed [15]))) (fun t => t.reg 1 == 15#8) = true ∧
    nextIs (exec (.getKey 1) ((withRegs [(1, 9#8)]).setKeys (pressed [0]))) (fun t => t.reg 1 == 0#8) = true := by
  decide

/-- V97, V98, V99. -/
theorem test_timers :
    nextIs (exec (.setDelay 1) (withRegs [(1, 0x3C#8)])) (fun t => t.delay == 0x3C#8) = true ∧
    nextIs (exec (.loadDelay 1) (start.setDelay 0x2A#8)) (fun t => t.reg 1 == 0x2A#8) = true ∧
    nextIs (exec (.setSound 1) (withRegs [(1, 5#8)])) (fun t => t.sound == 5#8) = true := by decide

/-! ## Witnesses: concrete values that meet an obligation's hypotheses together

One for each obligation with hypotheses, and one for each clause at a boundary where it has several. -/

theorem witness_DecodeEncodeGivesInstructionBack :
    Instr.wellFormed (.draw 15 0 0xF#4) = true ∧ Instr.wellFormed .ret = true := by decide

theorem witness_DecodedWordReencodesToItself : decodeWord 0xDF0F#16 = some (.draw 15 0 0xF#4) := by decide

/-- One word on each of the two clauses that can hold. -/
theorem witness_DecodeAnswersTheUniqueRow :
    (opcodeRows.filter fun r => r.selects 0x812F#16).length = 0 ∧
    (opcodeRows.filter fun r => r.selects 0x812E#16).length = 1 := by decide

/-- A word of each of the six lines of the table, and one of none. -/
theorem witness_UnmatchedWordsAreExactlyTheTable :
    ([0x0000, 0x5121, 0x8128, 0x912F, 0xE19F, 0xF1FF].map fun w => decodeWord (BitVec.ofNat 16 w))
      = List.replicate 6 none ∧ decodeWord 0x00E0#16 ≠ none := by decide

theorem witness_FetchReadsBigEndianPair : (start.setPc 0x0FFE#16).pc.toNat < 4095 := by decide

/-- The three clauses where they meet: 4094, 4095, 4096. -/
theorem witness_FetchOutsideMemoryIsFatal :
    AboutToTick (start.setPc 0x0FFE#16) ∧ (start.setPc 0x0FFE#16).pc.toNat = 4094 ∧
    AboutToTick (start.setPc 0x0FFF#16) ∧ (start.setPc 0x0FFF#16).pc.toNat = 4095 ∧
    AboutToTick (start.setPc 0x1000#16) ∧ (start.setPc 0x1000#16).pc.toNat = 4096 :=
  ⟨⟨rfl, rfl⟩, by decide, ⟨rfl, rfl⟩, by decide, ⟨rfl, rfl⟩, by decide⟩

theorem witness_StepRunsDecodedInstruction :
    AboutToTick (atBoot 0x8F14#16 start) ∧ (atBoot 0x8F14#16 start).pc.toNat < 4095 ∧
    decodeWord (wordAtPc (atBoot 0x8F14#16 start)) = some (.add 15 1) ∧
    Instr.wellFormed (.add 15 1) = true := ⟨⟨rfl, rfl⟩, by decide, by decide, by decide⟩

theorem witness_UnmatchedWordIsReportedAndSkipped :
    AboutToTick (atBoot 0x5121#16 start) ∧ (atBoot 0x5121#16 start).pc.toNat < 4095 ∧
    decodeWord (wordAtPc (atBoot 0x5121#16 start)) = none := ⟨⟨rfl, rfl⟩, by decide, by decide⟩

/-- A tick out of bounds by its fetch, one by its instruction, and one in bounds. -/
theorem witness_TickFaultsExactlyOutOfBounds :
    (AboutToTick (start.setPc 0x0FFF#16) ∧ 4095 ≤ (start.setPc 0x0FFF#16).pc.toNat) ∧
    (AboutToTick (atBoot 0xF133#16 (start.setIndex 0x0FFE#16)) ∧
      decodeWord (wordAtPc (atBoot 0xF133#16 (start.setIndex 0x0FFE#16))) = some (.bcd 1) ∧
      ¬ accessesInBounds (.bcd 1) (atBoot 0xF133#16 (start.setIndex 0x0FFE#16))) ∧
    (AboutToTick (atBoot 0xF133#16 (start.setIndex 0x0FFD#16)) ∧
      accessesInBounds (.bcd 1) (atBoot 0xF133#16 (start.setIndex 0x0FFD#16))) :=
  ⟨⟨⟨rfl, rfl⟩, by decide⟩,
   ⟨⟨rfl, rfl⟩, by decide, by unfold accessesInBounds; decide⟩,
   ⟨⟨rfl, rfl⟩, by unfold accessesInBounds; decide⟩⟩

/-- Reset, ticked once, with a program load scheduled. -/
def lateLoad : State := { start with ticked := true, schedule := .cons (.loadProgram [0x12#8]) .ticks }

theorem witness_StepRefusesExactlyALateLoad :
    lateLoad.ticked = true ∧ (nextInSchedule lateLoad.schedule).1 = .loadProgram [0x12#8] ∧
    step lateLoad = .refused .loadAfterTick := ⟨rfl, rfl, rfl⟩

/-- Start with one event to come, then whatever the environment does. -/
def startWith (e : Event) : State := { start with schedule := .cons e (.free 0) }

/-- A state for each of the seven clauses. -/
theorem witness_StepServesOldestScheduledEvent :
    (startWith .reset).schedule = .cons .reset (.free 0) ∧
    (startWith (.loadProgram [0x12#8])).schedule = .cons (.loadProgram [0x12#8]) (.free 0) ∧
    (startWith .tick).schedule = .cons .tick (.free 0) ∧
    (startWith .tickTimers).schedule = .cons .tickTimers (.free 0) ∧
    (startWith (.setKeys (pressed [3]))).schedule = .cons (.setKeys (pressed [3])) (.free 0) ∧
    start.schedule = .ticks ∧ State.reset.schedule = .free 0 := ⟨rfl, rfl, rfl, rfl, rfl, rfl, rfl⟩

theorem witness_FatalIgnoresAllButReset : ({ start with run := .fatal } : State).run = .fatal := rfl

/-- Both run states, and the timers at the ends of their range. -/
theorem witness_TickTimersCountsBothDown :
    ({ start with run := .fatal } : State).run = .fatal ∧
    ((start.setDelay 0xFF#8).setSound 0#8).run = .running ∧
    (tickTimers ((start.setDelay 0xFF#8).setSound 0#8)).delay = 0xFE#8 ∧
    (tickTimers ((start.setDelay 0xFF#8).setSound 0#8)).sound = 0#8 := ⟨rfl, rfl, by decide, by decide⟩

/-- S9 has four events on a delay timer of 3. -/
theorem witness_RepeatedTickTimersReachZero :
    ({ start.setDelay 3#8 with
      schedule := scheduleFirst (List.replicate 4 .tickTimers) (.free 0) } : State).run = .running ∧
    ({ start.setDelay 3#8 with
      schedule := scheduleFirst (List.replicate 4 .tickTimers) (.free 0) } : State).schedule =
      scheduleFirst (List.replicate 4 .tickTimers) (.free 0) := ⟨rfl, rfl⟩

theorem witness_SetKeysReplacesSnapshot :
    start.run = .running ∧ ({ start with run := .fatal } : State).run = .fatal := ⟨rfl, rfl⟩

/-- The clauses' boundary: the last byte kept of an image of 3585 bytes, and the byte dropped. -/
theorem witness_LoadProgramWritesImage :
    start.ticked = false ∧ Memory.wf start.mem = true ∧
    (0x200 ≤ 4095 ∧ 4095 < 0x200 + min (List.replicate 3585 (1 : Byte)).length 3584) ∧
    ¬ 4096 < 0x200 + min (List.replicate 3585 (1 : Byte)).length 3584 := by
  rw [List.length_replicate]
  exact ⟨rfl, rfl, by decide, by decide⟩

/-- The destination is a plain register, or the flag register. -/
theorem witness_flag_writers : (1 : Reg) ≠ flagReg ∧ (15 : Reg) = flagReg := by decide

theorem witness_AddWritesSumAndCarry :
    (1 : Reg) ≠ flagReg ∧ ((withRegs [(1, 0xFF#8), (2, 1#8)]).reg 1).toNat +
      ((withRegs [(1, 0xFF#8), (2, 1#8)]).reg 2).toNat = 256 := by decide

theorem witness_SubtractsWriteDifferenceAndNoBorrow :
    (1 : Reg) ≠ flagReg ∧ ((withRegs [(1, 5#8), (2, 5#8)]).reg 1).toNat ≥
      ((withRegs [(1, 5#8), (2, 5#8)]).reg 2).toNat := by decide

theorem witness_ShiftsWriteResultAndLostBit :
    (1 : Reg) ≠ flagReg ∧ ((withRegs [(2, 0x81#8)]).reg 2).toNat % 2 = 1 := by decide

theorem witness_RandomMasksAFreeByte : (2 : Reg) ≠ 1 := by decide

/-- A stack of two, and the empty stack. -/
theorem witness_ReturnPopsOrReports :
    (start.setStack [0x0202#16, 0x0456#16]).stack = [0x0202#16] ++ [0x0456#16] ∧
    start.stack = [] := ⟨rfl, rfl⟩

theorem witness_ReturnResumesAfterTheCall :
    (start.setStack [0x0200#16]).stack = start.stack ++ [start.pc] := rfl

theorem witness_SelfLoopChangesNothing :
    AtSelfLoop (atBoot 0x1200#16 start) ∧ AboutToTick (atBoot 0x1200#16 start) :=
  ⟨⟨rfl, by decide, 0x200#12, by decide, by decide⟩, rfl, rfl⟩

/-- A state in which a tick runs font-address: the word at pc is F129, the font as reset left it, and glyph 0
selected by a register that is not 0. -/
theorem witness_FontAddressPointsAtGlyph :
    decodeWord (wordAtPc (atBoot 0xF129#16 (withRegs [(1, 0x30#8)]))) = some (.fontAddress 1) ∧
    (∀ k, k < 80 →
      (atBoot 0xF129#16 (withRegs [(1, 0x30#8)])).byteAt (fontBase + k) = fontBytes.getD k 0) ∧
    ((atBoot 0xF129#16 (withRegs [(1, 0x30#8)])).reg 1).toNat % 16 = 0 := by
  refine ⟨by decide, fun k hk => ?_, by decide⟩
  have hb := fontBase_bound
  have h0 : Memory.wf ([] : Memory) = true := rfl
  have hm : (atBoot 0xF129#16 (withRegs [(1, 0x30#8)])).mem =
      Memory.write (Memory.write [] 0x200 0xF1#8) 0x201 0x29#8 := by decide
  rw [State.byteAt, hm, Memory.read_write (Memory.wf_write h0 (by decide) _), if_neg (by omega), Memory.read_write h0,
    if_neg (by omega)]
  exact Memory.initByte_font hk

/-- The last place where three bytes fit. -/
theorem witness_BcdStoresThreeDigits :
    Memory.wf (start.setIndex 0x0FFD#16).mem = true ∧ (start.setIndex 0x0FFD#16).cursor + 2 < 4096 := by
  decide

/-- The last place where all 16 registers fit. -/
theorem witness_StoreRegsWritesRegistersInOrder :
    Memory.wf (start.setIndex 0x0FF0#16).mem = true ∧
    (start.setIndex 0x0FF0#16).cursor + (15 : Reg).val < 4096 ∧ (15 : Reg) ≤ 15 := by decide

theorem witness_LoadRegsReadsRegistersInOrder :
    (start.setIndex 0x0FF0#16).cursor + (15 : Reg).val < 4096 ∧
    (start.setIndex 0x0FFF#16).cursor + (0 : Reg).val < 4096 ∧ (0 : Reg) ≤ 0 := by decide

theorem witness_LoadAfterStoreChangesNothing :
    Memory.wf (start.setIndex 0x0FF0#16).mem = true ∧
    (start.setIndex 0x0FF0#16).cursor + (15 : Reg).val < 4096 := by decide

/-- P4's store: `x[0]`, `x[1]` over the word at the pc. -/
theorem witness_StoredWordIsFetchedNext :
    Memory.wf ((start.setIndex 0x208#16).setPc 0x208#16).mem = true ∧
    ((start.setIndex 0x208#16).setPc 0x208#16).cursor + (1 : Reg).val < 4096 ∧
    (1 : Reg) ≤ 1 ∧ (1 : Reg).val = (0 : Reg).val + 1 ∧
    ((start.setIndex 0x208#16).setPc 0x208#16).pc.toNat =
      ((start.setIndex 0x208#16).setPc 0x208#16).cursor + (0 : Reg).val := by decide

/-- Both clauses, at the first address where each of the four changes from one to the other. -/
theorem witness_InstructionsCompleteExactlyInBounds :
    accessesInBounds (.draw 1 2 0#4) (start.setIndex 0x1000#16) ∧
    ¬ accessesInBounds (.draw 1 2 1#4) (start.setIndex 0x1000#16) ∧
    accessesInBounds (.bcd 1) (start.setIndex 0x0FFD#16) ∧
    ¬ accessesInBounds (.bcd 1) (start.setIndex 0x0FFE#16) ∧
    accessesInBounds (.storeRegs 15) (start.setIndex 0x0FF0#16) ∧
    ¬ accessesInBounds (.loadRegs 15) (start.setIndex 0x0FF1#16) ∧
    accessesInBounds .ret start := by
  unfold accessesInBounds; decide

/-- A draw that ends at the last byte, with its clauses on the flag: a cell that collides and a blank screen. -/
theorem witness_DrawXorsTheClippedSprite :
    (withBytes 0xFFF [0xFF#8] (start.setIndex 0x0FFF#16)).cursor + (1#4).toNat ≤ 4096 ∧
    drawCovers (withBytes 0xFFF [0xFF#8] (start.setIndex 0x0FFF#16)) 1 2 1#4 0 7 = true ∧
    Framebuffer.cell (oneCell 0 7) 0 7 = true ∧ Framebuffer.cell Framebuffer.blank 0 7 = false ∧
    (1 : Reg) ≠ flagReg := by decide

theorem witness_DrawTwiceRestoresTheDisplay :
    (1 : Reg) ≠ flagReg ∧ (2 : Reg) ≠ flagReg ∧
    (withSprite [0xFF#8] start).cursor + (1#4).toNat ≤ 4096 ∧
    (withSprite [0xFF#8] start).fb = Framebuffer.blank ∧
    drawCovers (withSprite [0xFF#8] start) 1 2 1#4 0 0 = true :=
  ⟨by decide, by decide, by decide, rfl, by decide⟩

/-- Keys 0 and 15, each selected by a register with other high bits. -/
theorem witness_SkipsOnKeys :
    (0 : Fin 16).val = ((withRegs [(1, 0x10#8)]).reg 1).toNat % 16 ∧
    (15 : Fin 16).val = ((withRegs [(1, 0xFF#8)]).reg 1).toNat % 16 := by decide

/-- Key 0, key 15 alone, and no key. -/
theorem witness_GetKeyTakesLowestOrRewinds :
    ((start.setKeys (pressed [0, 9])).keys[0] = true ∧
      ∀ j : Fin 16, j < 0 → (start.setKeys (pressed [0, 9])).keys[j.val] = false) ∧
    ((start.setKeys (pressed [15])).keys[15] = true ∧
      ∀ j : Fin 16, j < 15 → (start.setKeys (pressed [15])).keys[j.val] = false) ∧
    (∀ k : Fin 16, start.keys[k.val] = false) := by decide

theorem witness_GetKeyWaitIsARepeatedTick :
    AboutToTick (atBoot 0xF00A#16 start) ∧ (atBoot 0xF00A#16 start).pc.toNat < 4095 ∧
    decodeWord (wordAtPc (atBoot 0xF00A#16 start)) = some (.getKey 0) ∧
    ∀ k : Fin 16, (atBoot 0xF00A#16 start).keys[k.val] = false :=
  ⟨⟨rfl, rfl⟩, by decide, by decide, by decide⟩

/-- One instruction that meets the premises of all five clauses. -/
theorem witness_DevicesReachedByTheirInstructionsOnly :
    (Instr.bcd 1 ≠ .clearScreen ∧ ∀ x y n, Instr.bcd 1 ≠ .draw x y n) ∧
    ((∀ x, Instr.bcd 1 ≠ .skipKeyPressed x) ∧ (∀ x, Instr.bcd 1 ≠ .skipKeyNotPressed x) ∧
      ∀ x, Instr.bcd 1 ≠ .getKey x) ∧
    ((∀ x, Instr.bcd 1 ≠ .loadDelay x) ∧ ∀ x, Instr.bcd 1 ≠ .setDelay x) ∧
    (∀ x, Instr.bcd 1 ≠ .setSound x) ∧ ∀ x nn, Instr.bcd 1 ≠ .random x nn := by simp

theorem witness_StackIsPrivateToCallAndReturn :
    Instr.jump 0x300#12 ≠ .ret ∧ ∀ nnn, Instr.jump 0x300#12 ≠ .call nnn := by simp

/-- An instruction for each clause: one that reaches no memory, one that reads it and completes. -/
theorem witness_MemoryIsReachedByFourInstructions :
    reachesMemory (.random 1 2#8) = false ∧
    (∀ x, Instr.loadRegs 15 ≠ .bcd x) ∧ (∀ x, Instr.loadRegs 15 ≠ .storeRegs x) ∧
    ∃ t, exec (.loadRegs 15) (start.setIndex 0x0FF0#16) = .next t :=
  ⟨by decide, by simp, by simp, _, execLoadRegs_ok (by decide)⟩

theorem witness_IndexWrittenByThreeInstructions :
    (∀ nnn, Instr.storeRegs 15 ≠ .loadIndex nnn) ∧ (∀ x, Instr.storeRegs 15 ≠ .addIndex x) ∧
    (∀ x, Instr.storeRegs 15 ≠ .fontAddress x) ∧
    ∃ t, exec (.storeRegs 15) (start.setIndex 0x0FF0#16) = .next t :=
  ⟨by simp, by simp, by simp, _, execStoreRegs_ok (by decide)⟩

/-- A completing instruction for each of the eight cases. -/
theorem witness_PcChangedByControlInstructionsOnly :
    (changesPc .clearScreen = false ∧ ∃ t, exec .clearScreen start = .next t) ∧
    (isSkip (.skipEq 1 0#8) = true ∧ ∃ t, exec (.skipEq 1 0#8) start = .next t ∧ t.pc = start.pc + 2) ∧
    nextIs (exec (.getKey 1) (start.setKeys (pressed [0]))) (fun t => t.pc == start.pc) = true ∧
    nextIs (exec (.getKey 1) start) (fun t => t.pc == start.pc - 2) = true ∧
    (∃ t, exec (.call 0xFFF#12) start = .next t) ∧ (∃ t, exec (.jumpOffset 0xFFF#12) start = .next t) ∧
    nextIs (exec .ret start) (fun t => t.pc == start.pc) = true ∧
    nextIs (exec .ret (start.setStack [0x0206#16])) (fun t => t.pc == 0x0206#16) = true :=
  ⟨⟨rfl, _, rfl⟩, ⟨rfl, _, rfl, rfl⟩, by decide, by decide, ⟨_, rfl⟩, ⟨_, rfl⟩, by decide, by decide⟩

theorem witness_RegistersChangeOnlyAsNamed :
    (∃ t, exec (.add 1 2) start = .next t) ∧ ¬ writesReg (.add 1 2) 2 :=
  ⟨⟨_, rfl⟩, by unfold writesReg; decide⟩

/-- The flag register, which add writes and, on other registers, does not read. -/
theorem witness_RegistersAreReadOnlyAsNamed :
    ¬ readsReg (.add 1 2) 15 ∧ ¬ readsReg (.jumpOffset 0xFFF#12) 15 ∧ ¬ readsReg (.storeRegs 14) 15 := by
  unfold readsReg; decide

/-- The clause on the error output, by a return on the empty stack. -/
theorem witness_InstructionsKeepTheHostsState :
    ∃ t, exec .ret start = .next t ∧ t.errOut = some .stackUnderflow := ⟨_, rfl, rfl⟩

theorem witness_StepKeepsMemoryCanonical :
    Memory.wf (atBoot 0x6FAB#16 start).mem = true ∧
    ∃ t, step (atBoot 0x6FAB#16 start) = .next t := ⟨by decide, _, rfl⟩

/-- pc and the stacked address at their bounds, a tick of the timers next. -/
def atBounds : State :=
  { start with pc := 0x10FE#16, stack := [0x1000#16], schedule := .cons .tickTimers .ticks }

theorem witness_StepKeepsPcAndStackBounded :
    PcAndStackBounded atBounds ∧ nextIs (step atBounds) (fun _ => true) = true :=
  ⟨⟨by decide, fun v hv => by rw [List.mem_singleton.mp hv]; decide⟩, by decide⟩

theorem witness_PlacedInstructionIsRunNext : Memory.wf start.mem = true := rfl

end Sys2Proof.Tests
end

namespace Sys2Proof.Machine

/-! ## A step for each shape of the schedule (00_scope.md R7, R8) -/

/-- What the schedule gives next decides the step: that event, in the state with the events after it. -/
theorem step_eq_apply {s : State} {e : Event} {rest : Schedule}
    (h : nextInSchedule s.schedule = (e, rest)) :
    step s = apply e { s with schedule := rest } := by
  simp only [step, nextEvent, h]

theorem step_of_schedule_cons {s : State} {e : Event} {rest : Schedule}
    (h : s.schedule = .cons e rest) : step s = apply e { s with schedule := rest } :=
  step_eq_apply (by rw [h, nextInSchedule_cons])

/-- Ticks for ever are what is left after one tick, so the tick runs in the state itself. -/
theorem step_of_schedule_ticks {s : State} (h : s.schedule = .ticks) : step s = tick s := by
  have hs : { s with schedule := .ticks } = s := by rw [← h]
  have happly : step s = apply .tick { s with schedule := .ticks } :=
    step_eq_apply (by rw [h, nextInSchedule_ticks])
  rw [happly, hs]
  rfl

theorem step_of_schedule_free {s : State} {n : Nat} (h : s.schedule = .free n) :
    step s = apply (Config.environmentEvent n) { s with schedule := .free (n + 1) } :=
  step_eq_apply (by rw [h, nextInSchedule_free])

/-- Settles O12: each listed event by `step_of_schedule_cons`, of which `apply` gives the event's own
operation; the environment's `n`-th event steps as the same event listed does. -/
theorem stepServesOldestScheduledEvent : Obligations.StepServesOldestScheduledEvent := by
  intro s
  refine ⟨?reset, ?loadProgram, ?tick, ?tickTimers, ?setKeys, step_of_schedule_ticks, ?free⟩
  case reset => exact fun _ h => step_of_schedule_cons h
  case loadProgram => exact fun _ _ h => step_of_schedule_cons h
  case tick => exact fun _ h => step_of_schedule_cons h
  case tickTimers => exact fun _ h => step_of_schedule_cons h
  case setKeys => exact fun _ _ h => step_of_schedule_cons h
  case free =>
    intro n h
    rw [step_of_schedule_free h, step_of_schedule_cons rfl]

end Sys2Proof.Machine

namespace Sys2Proof.Machine

/-! ## What an instruction that completes can have done to the pc, the stack and the host's state -/

/-- `t` is `s` but for the state an instruction computes with: registers, `I`, memory, display, timers, and
the count of random bytes. -/
def OnlyData (s t : State) : Prop :=
  t = { s with regs := t.regs, index := t.index, mem := t.mem, fb := t.fb, delay := t.delay,
               sound := t.sound, draws := t.draws }

theorem OnlyData.pc {s t : State} (h : OnlyData s t) : t.pc = s.pc := by rw [h]

theorem OnlyData.stack {s t : State} (h : OnlyData s t) : t.stack = s.stack := by rw [h]

/-- `t` agrees with `s` on what belongs to the host: run state, keypad, the events to come, the mark of a
tick. -/
def KeepsHost (s t : State) : Prop :=
  t.run = s.run ∧ t.keys = s.keys ∧ t.schedule = s.schedule ∧ t.ticked = s.ticked

theorem OnlyData.keepsHost {s t : State} (h : OnlyData s t) : KeepsHost s t := by
  rw [h]; exact ⟨rfl, rfl, rfl, rfl⟩

theorem OnlyData.errOut {s t : State} (h : OnlyData s t) : t.errOut = s.errOut := by rw [h]

/-- What completing instruction `i` makes of `s`: one case for each way R31 lists of treating the pc, and
`data` for every other instruction. -/
inductive Completes (s : State) : Instr → State → Prop where
  | data {i t} (hi : changesPc i = false) (ht : OnlyData s t) : Completes s i t
  | skip {i} (hi : isSkip i = true) (taken : Bool) : Completes s i (s.skipIf taken)
  | keyDown (x) {k} (hk : s.firstKey = some k) : Completes s (.getKey x) (s.setReg x (keyByte k))
  | noKey (x) (hk : s.firstKey = none) : Completes s (.getKey x) (s.setPc (s.pc - 2))
  | jump (nnn) : Completes s (.jump nnn) (s.setPc (immAddr nnn))
  | call (nnn) : Completes s (.call nnn) ((s.push s.pc).setPc (immAddr nnn))
  | jumpOffset (nnn) :
      Completes s (.jumpOffset nnn) (s.setPc (immAddr nnn + zext16 (s.reg 0)))
  | retEmpty (hs : s.stack = []) : Completes s .ret (s.report .stackUnderflow)
  | retPop {st v} (hs : s.stack = st ++ [v]) : Completes s .ret ((s.setStack st).setPc v)

/-! ### The instructions that can do more than one thing -/

theorem State.stack_empty_or_concat (s : State) :
    s.stack = [] ∨ ∃ st v, s.stack = st ++ [v] := by
  by_cases h : s.stack = []
  · exact .inl h
  · exact .inr ⟨_, _, (List.dropLast_concat_getLast h).symm⟩

theorem execRet_empty {s : State} (h : s.stack = []) :
    execRet s = .next (s.report .stackUnderflow) := by
  rw [execRet, State.pop_empty s h]

theorem execRet_pop {s : State} {st : List Word} {v : Word} (h : s.stack = st ++ [v]) :
    execRet s = .next ((s.setStack st).setPc v) := by
  rw [execRet, State.pop_concat s h]

theorem execGetKey_keyDown {x : Reg} {s : State} {k : Fin 16} (h : s.firstKey = some k) :
    execGetKey x s = .next (s.setReg x (keyByte k)) := by
  rw [execGetKey, h]

theorem execGetKey_noKey {x : Reg} {s : State} (h : s.firstKey = none) :
    execGetKey x s = .next (s.setPc (s.pc - 2)) := by
  rw [execGetKey, h]

theorem execBcd_next {x : Reg} {s t : State} (h : execBcd x s = .next t) : OnlyData s t := by
  by_cases hb : s.cursor + 2 < 4096
  · rw [execBcd_ok hb] at h; cases h; rfl
  · rw [execBcd_error (by omega)] at h; cases h

theorem execStoreRegs_next {x : Reg} {s t : State} (h : execStoreRegs x s = .next t) :
    OnlyData s t := by
  by_cases hb : s.cursor + x.val < 4096
  · rw [execStoreRegs_ok hb] at h; cases h; rfl
  · rw [execStoreRegs_error (by omega)] at h; cases h

theorem execLoadRegs_next {x : Reg} {s t : State} (h : execLoadRegs x s = .next t) :
    OnlyData s t := by
  by_cases hb : s.cursor + x.val < 4096
  · rw [execLoadRegs_ok hb] at h; cases h; rfl
  · rw [execLoadRegs_error (by omega)] at h; cases h

theorem execDraw_next {x y : Reg} {n : Nibble} {s t : State} (h : execDraw x y n s = .next t) :
    OnlyData s t := by
  by_cases hb : s.cursor + n.toNat ≤ 4096
  · rw [execDraw_ok hb] at h; cases h; rfl
  · rw [execDraw_error (by omega)] at h; cases h

/-- Everything an instruction that answers a next state can have done (R31, R124). -/
theorem exec_next {i : Instr} {s t : State} (h : exec i s = .next t) : Completes s i t := by
  cases i with
  | clearScreen | loadImm | addImm | move | or | and | xor | add | sub | subn | shr | shl | loadIndex
  | random | loadDelay | setDelay | setSound | addIndex | fontAddress =>
    cases h; exact .data rfl rfl
  | bcd => exact .data rfl (execBcd_next h)
  | storeRegs => exact .data rfl (execStoreRegs_next h)
  | loadRegs => exact .data rfl (execLoadRegs_next h)
  | draw => exact .data rfl (execDraw_next h)
  | skipEq | skipNeq | skipEqReg | skipNeqReg | skipKeyPressed | skipKeyNotPressed =>
    cases h; exact .skip rfl _
  | jump => cases h; exact .jump _
  | call => cases h; exact .call _
  | jumpOffset => cases h; exact .jumpOffset _
  | getKey =>
    rw [exec] at h
    cases hk : s.firstKey with
    | some => rw [execGetKey_keyDown hk] at h; cases h; exact .keyDown _ hk
    | none => rw [execGetKey_noKey hk] at h; cases h; exact .noKey _ hk
  | ret =>
    rw [exec] at h
    obtain hs | ⟨st, v, hs⟩ := s.stack_empty_or_concat
    · rw [execRet_empty hs] at h; cases h; exact .retEmpty hs
    · rw [execRet_pop hs] at h; cases h; exact .retPop hs

/-! ## The pc's bound (R32) -/

theorem immAddr_toNat (nnn : Addr12) : (immAddr nnn).toNat = nnn.toNat :=
  BitVec.toNat_setWidth_of_le (by decide)

/-- The target of jump-offset does not wrap (R147). -/
theorem jumpOffset_target_toNat (nnn : Addr12) (v : Byte) :
    (immAddr nnn + zext16 v).toNat = nnn.toNat + v.toNat := by
  simp only [immAddr, zext16]
  bv_omega

theorem PcAndStackBounded.congr {s t : State} (hs : PcAndStackBounded s) (hpc : t.pc = s.pc)
    (hst : t.stack = s.stack) : PcAndStackBounded t := by
  rwa [PcAndStackBounded, hpc, hst]

/-- An instruction run where fetch leaves the pc, above 0 and at most 0x1000, keeps both bounds: call stacks
that pc, and no target of a jump, a return or a skip passes 0x10FE. -/
theorem exec_bounded {i : Instr} {s t : State} (hlo : 2 ≤ s.pc.toNat) (hhi : s.pc.toNat ≤ 0x1000)
    (hst : ∀ v ∈ s.stack, v.toNat ≤ 0x1000) (h : exec i s = .next t) : PcAndStackBounded t := by
  have hs : PcAndStackBounded s := ⟨by omega, hst⟩
  cases exec_next h with
  | data _ ht => exact hs.congr ht.pc ht.stack
  | skip _ taken =>
    cases taken with
    | false => exact hs
    | true => exact ⟨by rw [State.skipIf, if_pos rfl, State.setPc_pc]; bv_omega, hst⟩
  | keyDown => exact hs.congr rfl rfl
  | noKey => exact ⟨by rw [State.setPc_pc]; bv_omega, hst⟩
  | jump nnn => exact ⟨by rw [State.setPc_pc, immAddr_toNat]; omega, hst⟩
  | call nnn =>
    refine ⟨by rw [State.setPc_pc, immAddr_toNat]; omega, fun v hv => ?_⟩
    obtain hv | hv := List.mem_append.mp hv
    · exact hst v hv
    · rw [List.mem_singleton.mp hv]; exact hhi
  | jumpOffset nnn => exact ⟨by rw [State.setPc_pc, jumpOffset_target_toNat]; omega, hst⟩
  | retEmpty => exact hs.congr rfl rfl
  | retPop he =>
    rw [he] at hst
    have hv := hst _ List.mem_concat_self
    exact ⟨by rw [State.setPc_pc]; omega, fun v hv => hst v (List.mem_append_left _ hv)⟩

theorem tick_bounded {s t : State} (hs : PcAndStackBounded s) (h : tick s = .next t) :
    PcAndStackBounded t := by
  obtain ⟨-, rfl⟩ | ⟨-, hpc, ⟨i, -, hi⟩ | ⟨-, rfl⟩⟩ := tick_next h
  · exact hs
  · have hadv : s.advance.pc.toNat = s.pc.toNat + 2 := by rw [State.advance_pc]; bv_omega
    exact exec_bounded (s := s.advance) (by omega) (by omega) hs.2 hi
  · exact ⟨by rw [State.report_pc, State.advance_pc]; bv_omega, hs.2⟩

theorem loadProgram_next {image : List Byte} {s t : State} (h : loadProgram image s = .next t) :
    t = s.setMem (Memory.writeAll s.mem 0x200 (image.take 3584)) := by
  unfold loadProgram at h
  split at h
  · cases h
  · cases h; rfl

theorem tickTimers_bounded {s : State} (hs : PcAndStackBounded s) : PcAndStackBounded (tickTimers s) := by
  unfold tickTimers
  split <;> exact hs

theorem setKeysEvent_bounded {s : State} (hs : PcAndStackBounded s) (p : Vector Bool 16) :
    PcAndStackBounded (setKeysEvent p s) := by
  unfold setKeysEvent
  split <;> exact hs

theorem resetEvent_bounded (s : State) : PcAndStackBounded (resetEvent s) :=
  ⟨(by decide : (0x0200#16).toNat ≤ 0x10FE), fun _ hv => absurd hv List.not_mem_nil⟩

/-- Settles O58: a tick by `tick_bounded`; reset sets its own pc and stack, and the other three events
change neither. -/
theorem stepKeepsPcAndStackBounded : Obligations.StepKeepsPcAndStackBounded := by
  intro s t hs h
  have hs' : PcAndStackBounded { s with schedule := afterNext s } := hs.congr rfl rfl
  obtain rfl | ⟨image, hload⟩ | htick | rfl | ⟨p, rfl⟩ := step_next h
  · exact resetEvent_bounded _
  · rw [loadProgram_next hload]; exact hs'
  · exact tick_bounded hs' htick
  · exact tickTimers_bounded hs'
  · exact setKeysEvent_bounded hs' p

/-! ## The pc and the host's state, instruction by instruction -/

theorem keyDown_of_firstKey {s : State} {k : Fin 16} (h : s.firstKey = some k) :
    s.keys[k.val] = true :=
  List.find?_some (p := fun k : Fin 16 => s.keys[k.val]) h

theorem noKeyDown_of_firstKey {s : State} (h : s.firstKey = none) (k : Fin 16) :
    s.keys[k.val] = false :=
  eq_false_of_ne_true (List.find?_eq_none.mp h k (List.mem_finRange k))

/-- Settles O53: each case of `exec_next` is one of R31's. -/
theorem pcChangedByControlInstructionsOnly : Obligations.PcChangedByControlInstructionsOnly := by
  intro i s t h
  cases exec_next h with
  | data hi ht => exact .inl ⟨hi, ht.pc⟩
  | skip hi taken =>
    refine .inr (.inl ⟨hi, ?_⟩)
    cases taken with
    | false => exact .inl rfl
    | true => exact .inr rfl
  | keyDown x hk => exact .inr (.inr (.inl ⟨x, rfl, ⟨_, keyDown_of_firstKey hk⟩, rfl⟩))
  | noKey x hk => exact .inr (.inr (.inr (.inl ⟨x, rfl, noKeyDown_of_firstKey hk, rfl⟩)))
  | jump nnn => exact .inr (.inr (.inr (.inr (.inl ⟨nnn, .inl rfl, rfl⟩))))
  | call nnn => exact .inr (.inr (.inr (.inr (.inl ⟨nnn, .inr rfl, rfl⟩))))
  | jumpOffset nnn =>
    exact .inr (.inr (.inr (.inr (.inr (.inl ⟨nnn, rfl, jumpOffset_target_toNat nnn _⟩)))))
  | retEmpty hs => exact .inr (.inr (.inr (.inr (.inr (.inr (.inl ⟨rfl, hs, rfl⟩))))))
  | retPop hs => exact .inr (.inr (.inr (.inr (.inr (.inr (.inr ⟨rfl, _, hs⟩))))))

theorem exec_keepsHost {i : Instr} {s t : State} (h : exec i s = .next t) : KeepsHost s t := by
  cases exec_next h with
  | data _ ht => exact ht.keepsHost
  | skip _ taken => rw [State.skipIf_eq]; exact ⟨rfl, rfl, rfl, rfl⟩
  | keyDown | noKey | jump | call | jumpOffset | retEmpty | retPop => exact ⟨rfl, rfl, rfl, rfl⟩

theorem exec_errOut {i : Instr} {s t : State} (h : exec i s = .next t) :
    t.errOut = s.errOut ∨ (i = .ret ∧ s.stack = [] ∧ t.errOut = some .stackUnderflow) := by
  cases exec_next h with
  | data _ ht => exact .inl ht.errOut
  | skip _ taken => rw [State.skipIf_eq]; exact .inl rfl
  | keyDown | noKey | jump | call | jumpOffset | retPop => exact .inl rfl
  | retEmpty hs => exact .inr ⟨rfl, hs, rfl⟩

/-- Settles O56, from what `exec_next` says of the host's fields and of the error output. -/
theorem instructionsKeepTheHostsState : Obligations.InstructionsKeepTheHostsState := by
  intro i s t h
  obtain ⟨hrun, hkeys, hschedule, hticked⟩ := exec_keepsHost h
  exact ⟨hrun, hkeys, hschedule, hticked, exec_errOut h⟩

/-! ## A register an instruction does not read (R25) -/

theorem onlyRegs_setReg (s : State) (r : Reg) (v : Byte) : OnlyRegs (· = r) s (s.setReg r v) :=
  ⟨rfl, fun _ hq => State.setReg_reg_of_ne s v hq⟩

/-- Writing the same value to the same register keeps two states apart in the same registers only. -/
theorem OnlyRegs.setReg {touched : Reg → Prop} {s t : State} (h : OnlyRegs touched s t) (x : Reg)
    {a b : Byte} (hab : b = a) : OnlyRegs touched (s.setReg x a) (t.setReg x b) := by
  obtain ⟨ht, hreg⟩ := h
  subst hab
  refine ⟨?_, fun q hq => by rw [State.setReg_reg, State.setReg_reg, hreg q hq]⟩
  rw [ht]; rfl

theorem OnlyRegs.setRegThenFlag {touched : Reg → Prop} {s t : State} (h : OnlyRegs touched s t)
    (x : Reg) {a b f g : Byte} (hab : b = a) (hfg : g = f) :
    OnlyRegs touched (s.setRegThenFlag x a f) (t.setRegThenFlag x b g) :=
  (h.setReg x hab).setReg flagReg hfg

theorem OnlyRegs.setRegsFrom0 {touched : Reg → Prop} {s t : State} (h : OnlyRegs touched s t)
    (bs : List Byte) : OnlyRegs touched (s.setRegsFrom0 bs) (t.setRegsFrom0 bs) := by
  obtain ⟨ht, hreg⟩ := h
  refine ⟨?_, fun q hq => by rw [State.setRegsFrom0_reg, State.setRegsFrom0_reg, hreg q hq]⟩
  rw [ht]; rfl

/-- Two states apart in `x[r]` alone are one state once `x[r]` is written. -/
theorem OnlyRegs.setReg_eq {r : Reg} {s t : State} (h : OnlyRegs (· = r) s t) (a : Byte) :
    t.setReg r a = s.setReg r a := by
  obtain ⟨ht, hreg⟩ := h.setReg r (a := a) rfl
  rw [ht, show (t.setReg r a).regs = (s.setReg r a).regs from State.reg_ext fun q => ?_]
  by_cases hq : q = r
  · subst hq
    exact (State.setReg_reg_self t q a).trans (State.setReg_reg_self s q a).symm
  · exact hreg q hq

/-- The outcomes are the same but for `x[r]` of the next state. -/
def SameButReg (r : Reg) (o o' : Host.Outcome State Fault Refusal) : Prop :=
  mapNext (fun t => t.setReg r 0) o = mapNext (fun t => t.setReg r 0) o'

theorem SameButReg.next {r : Reg} {s t : State} (h : OnlyRegs (· = r) s t) :
    SameButReg r (.next t) (.next s) :=
  congrArg Host.Outcome.next (h.setReg_eq 0)

/-- The next state still carries what was put in `x[r]`. -/
theorem SameButReg.carried {r : Reg} {s t : State} (v : Byte) (h : t = s.setReg r v) :
    SameButReg r (.next t) (.next s) := by
  subst h; exact .next (onlyRegs_setReg s r v)

theorem State.skipIf_setReg (s : State) (r : Reg) (v : Byte) (taken : Bool) :
    (s.setReg r v).skipIf taken = (s.skipIf taken).setReg r v := by
  cases taken <;> rfl

theorem State.regsUpTo_setReg {x r : Reg} (h : ¬ r ≤ x) (s : State) (v : Byte) :
    (s.setReg r v).regsUpTo x = s.regsUpTo x := by
  simp only [State.regsUpTo, State.setReg_regs, Vector.toList_set]
  exact List.take_set_of_le (Nat.lt_of_not_le h)

/-! ### Instructions that look at the stack or the keypad, or can fault -/

theorem execRet_sameButReg (r : Reg) (v : Byte) (s : State) :
    SameButReg r (execRet (s.setReg r v)) (execRet s) := by
  obtain hs | ⟨st, w, hs⟩ := s.stack_empty_or_concat
  · rw [execRet_empty hs, execRet_empty (s := s.setReg r v) hs]; exact .carried v rfl
  · rw [execRet_pop hs, execRet_pop (s := s.setReg r v) hs]; exact .carried v rfl

theorem execGetKey_sameButReg (x r : Reg) (v : Byte) (s : State) :
    SameButReg r (execGetKey x (s.setReg r v)) (execGetKey x s) := by
  cases hk : s.firstKey with
  | some k =>
    rw [execGetKey_keyDown hk, execGetKey_keyDown (s := s.setReg r v) hk]
    exact .next ((onlyRegs_setReg s r v).setReg x rfl)
  | none =>
    rw [execGetKey_noKey hk, execGetKey_noKey (s := s.setReg r v) hk]
    exact .carried v rfl

theorem execDraw_sameButReg {x y r : Reg} (n : Nibble) (v : Byte) (s : State) (hx : x ≠ r)
    (hy : y ≠ r) : SameButReg r (execDraw x y n (s.setReg r v)) (execDraw x y n s) := by
  obtain hb | hb := Nat.lt_or_ge 4096 (s.cursor + n.toNat)
  · rw [execDraw_error hb, execDraw_error (s := s.setReg r v) hb]; rfl
  · rw [execDraw_ok hb, execDraw_ok (s := s.setReg r v) hb, State.setReg_reg_of_ne s v hx,
      State.setReg_reg_of_ne s v hy]
    exact .next ((onlyRegs_setReg (s.setFb _) r v).setReg flagReg rfl)

theorem execBcd_sameButReg {x r : Reg} (v : Byte) (s : State) (hx : x ≠ r) :
    SameButReg r (execBcd x (s.setReg r v)) (execBcd x s) := by
  obtain hb | hb := Nat.lt_or_ge (s.cursor + 2) 4096
  · rw [execBcd_ok hb, execBcd_ok (s := s.setReg r v) hb, State.setReg_reg_of_ne s v hx]
    exact .carried v rfl
  · rw [execBcd_error hb, execBcd_error (s := s.setReg r v) hb]; rfl

theorem execStoreRegs_sameButReg {x r : Reg} (v : Byte) (s : State) (hx : ¬ r ≤ x) :
    SameButReg r (execStoreRegs x (s.setReg r v)) (execStoreRegs x s) := by
  obtain hb | hb := Nat.lt_or_ge (s.cursor + x.val) 4096
  · rw [execStoreRegs_ok hb, execStoreRegs_ok (s := s.setReg r v) hb, State.regsUpTo_setReg hx]
    exact .carried v rfl
  · rw [execStoreRegs_error hb, execStoreRegs_error (s := s.setReg r v) hb]; rfl

theorem execLoadRegs_sameButReg (x r : Reg) (v : Byte) (s : State) :
    SameButReg r (execLoadRegs x (s.setReg r v)) (execLoadRegs x s) := by
  obtain hb | hb := Nat.lt_or_ge (s.cursor + x.val) 4096
  · rw [execLoadRegs_ok hb, execLoadRegs_ok (s := s.setReg r v) hb]
    exact .next ((onlyRegs_setReg s r v).setRegsFrom0 _)
  · rw [execLoadRegs_error hb, execLoadRegs_error (s := s.setReg r v) hb]; rfl

/-- Settles O55: the registers an instruction reads are the same after the change, so it computes the same
values; writing them leaves the two states apart in `x[r]` alone. -/
theorem registersAreReadOnlyAsNamed : Obligations.RegistersAreReadOnlyAsNamed := by
  intro i r v s hr
  change SameButReg r (exec i (s.setReg r v)) (exec i s)
  have hread {q : Reg} (hq : ¬ r = q) : (s.setReg r v).reg q = s.reg q :=
    State.setReg_reg_of_ne s v (Ne.symm hq)
  have hs := onlyRegs_setReg s r v
  cases i with
  | clearScreen | jump | call | loadIndex => exact .carried v rfl
  | jumpOffset | setDelay | setSound | addIndex | fontAddress =>
    exact .carried v (by rw [hread hr]; rfl)
  | skipEq | skipNeq | skipKeyPressed | skipKeyNotPressed =>
    exact .carried v (by rw [hread hr]; exact State.skipIf_setReg s r v _)
  | skipEqReg | skipNeqReg =>
    obtain ⟨hx, hy⟩ := not_or.mp hr
    exact .carried v (by rw [hread hx, hread hy]; exact State.skipIf_setReg s r v _)
  | loadImm | loadDelay => exact .next (hs.setReg _ rfl)
  | random => exact .next ((onlyRegs_setReg s.countDraw r v).setReg _ rfl)
  | addImm | move => exact .next (hs.setReg _ (by rw [hread hr]))
  | or | and | xor =>
    obtain ⟨hx, hy⟩ := not_or.mp hr
    exact .next (hs.setReg _ (by rw [hread hx, hread hy]))
  | shr | shl => exact .next (hs.setRegThenFlag _ (by rw [hread hr]) (by rw [hread hr]))
  | add | sub | subn =>
    obtain ⟨hx, hy⟩ := not_or.mp hr
    exact .next (hs.setRegThenFlag _ (by rw [hread hx, hread hy]) (by rw [hread hx, hread hy]))
  | ret => exact execRet_sameButReg r v s
  | getKey x => exact execGetKey_sameButReg x r v s
  | draw x y n =>
    obtain ⟨hx, hy⟩ := not_or.mp hr
    exact execDraw_sameButReg n v s (Ne.symm hx) (Ne.symm hy)
  | bcd => exact execBcd_sameButReg v s (Ne.symm hr)
  | storeRegs => exact execStoreRegs_sameButReg v s hr
  | loadRegs x => exact execLoadRegs_sameButReg x r v s

end Sys2Proof.Machine

namespace Sys2Proof.Machine

/-! ## What a program load writes (20_memory.md R71) -/

theorem loadProgram_of_not_ticked {s : State} (h : s.ticked = false) (image : List Byte) :
    loadProgram image s =
      .next (s.setMem (Memory.writeAll s.mem 0x200 (image.take 3584))) := by
  simp [loadProgram, h]

/-- Below the cut, truncating a list does not change what it holds. -/
theorem getD_take_of_lt {bs : List Byte} {n k : Nat} (h : k < n) (d : Byte) :
    (bs.take n).getD k d = bs.getD k d := by
  rw [List.getD_eq_getElem?_getD, List.getD_eq_getElem?_getD, List.getElem?_take_of_lt h]

/-- Settles O17: the bytes kept fit between 0x200 and the end of memory, so `Memory.read_writeAll` says
what every address reads as afterwards. -/
theorem loadProgramWritesImage : Obligations.LoadProgramWritesImage := by
  intro s b hticked hwf
  refine ⟨_, loadProgram_of_not_ticked hticked b, rfl, fun a => ?_⟩
  have hlen : (b.take 3584).length = min b.length 3584 := by rw [List.length_take, Nat.min_comm]
  have hfits : 0x200 + (b.take 3584).length ≤ 4096 := by omega
  refine (Memory.read_writeAll hwf hfits a).trans ?_
  rw [hlen]
  split
  · exact getD_take_of_lt (by omega) 0
  · rfl

/-! ## Byte order of a fetch (20_memory.md R64) -/

theorem highByte_wordOfBytes (b0 b1 : Byte) : highByte (wordOfBytes b0 b1) = b0 :=
  (BitVec.extractLsb'_append_eq_of_le (Nat.le_refl 8)).trans BitVec.extractLsb'_eq_self

theorem lowByte_wordOfBytes (b0 b1 : Byte) : lowByte (wordOfBytes b0 b1) = b1 :=
  extract_low b0 b1

/-- Settles O6: a fetch in bounds puts its two bytes together as `wordOfBytes`, of which `highByte` and
`lowByte` give them back; a loaded image's first two bytes are the ones at the reset pc. -/
theorem fetchReadsBigEndianPair : Obligations.FetchReadsBigEndianPair := by
  refine ⟨fun s hpc => ⟨_, s.fetchWord_ok hpc, highByte_wordOfBytes _ _, lowByte_wordOfBytes _ _⟩,
    fun w => ?_⟩
  obtain ⟨t, hload, hframe, hbyte⟩ :=
    loadProgramWritesImage State.reset [highByte w, lowByte w] rfl Memory.wf_reset
  have hpc : t.pc.toNat = 0x200 := by rw [hframe]; rfl
  have hhigh : t.byteAt 0x200 = highByte w := hbyte 0x200
  have hlow : t.byteAt 0x201 = lowByte w := hbyte 0x201
  refine ⟨t, hload, ?_⟩
  rw [t.fetchWord_ok (by omega), hpc, hhigh, hlow, wordOfBytes_high_low]

/-! ## The instructions that reach memory (20_memory.md R68) -/

theorem State.skipIf_setMem (s : State) (m : Memory) (taken : Bool) :
    (s.setMem m).skipIf taken = (s.skipIf taken).setMem m := by
  cases taken <;> rfl

theorem execRet_setMem (s : State) (m : Memory) :
    execRet (s.setMem m) = mapNext (·.setMem m) (execRet s) := by
  obtain hs | ⟨st, v, hs⟩ := s.stack_empty_or_concat
  · rw [execRet_empty hs, execRet_empty (s := s.setMem m) hs]; rfl
  · rw [execRet_pop hs, execRet_pop (s := s.setMem m) hs]; rfl

theorem execGetKey_setMem (x : Reg) (s : State) (m : Memory) :
    execGetKey x (s.setMem m) = mapNext (·.setMem m) (execGetKey x s) := by
  cases hk : s.firstKey with
  | some k => rw [execGetKey_keyDown hk, execGetKey_keyDown (s := s.setMem m) hk]; rfl
  | none => rw [execGetKey_noKey hk, execGetKey_noKey (s := s.setMem m) hk]; rfl

/-- An instruction that does not reach memory runs the same whatever memory is, and carries it along. -/
theorem exec_setMem {i : Instr} (hi : reachesMemory i = false) (s : State) (m : Memory) :
    exec i (s.setMem m) = mapNext (·.setMem m) (exec i s) := by
  cases i with
  | draw | bcd | storeRegs | loadRegs => cases hi
  | ret => exact execRet_setMem s m
  | getKey x => exact execGetKey_setMem x s m
  | skipEq | skipNeq | skipEqReg | skipNeqReg | skipKeyPressed | skipKeyNotPressed =>
    exact congrArg Host.Outcome.next (s.skipIf_setMem m _)
  | clearScreen | jump | call | loadImm | addImm | move | or | and | xor | add | sub | subn | shr
  | shl | loadIndex | jumpOffset | random | loadDelay | setDelay | setSound | addIndex
  | fontAddress => rfl

/-- Running on memory as it is shows that such an instruction leaves it so. -/
theorem exec_mem_of_not_reachesMemory {i : Instr} (hi : reachesMemory i = false) {s t : State}
    (h : exec i s = .next t) : t.mem = s.mem := by
  have hset : exec i s = mapNext (·.setMem s.mem) (exec i s) := exec_setMem hi s s.mem
  rw [h] at hset
  have ht : t = t.setMem s.mem := Host.Outcome.next.inj hset
  rw [ht, State.setMem_mem]

theorem execDraw_mem {x y : Reg} {n : Nibble} {s t : State} (h : execDraw x y n s = .next t) :
    t.mem = s.mem := by
  obtain hb | hb := Nat.lt_or_ge 4096 (s.cursor + n.toNat)
  · rw [execDraw_error hb] at h; cases h
  · rw [execDraw_ok hb] at h; cases h; rfl

theorem execLoadRegs_mem {x : Reg} {s t : State} (h : execLoadRegs x s = .next t) :
    t.mem = s.mem := by
  obtain hb | hb := Nat.lt_or_ge (s.cursor + x.val) 4096
  · rw [execLoadRegs_ok hb] at h; cases h; rfl
  · rw [execLoadRegs_error hb] at h; cases h

/-- Only bcd and store-regs write memory. -/
theorem exec_mem {i : Instr} (hbcd : ∀ x, i ≠ .bcd x) (hstore : ∀ x, i ≠ .storeRegs x) {s t : State}
    (h : exec i s = .next t) : t.mem = s.mem := by
  cases hi : reachesMemory i with
  | false => exact exec_mem_of_not_reachesMemory hi h
  | true =>
    cases i with
    | draw => exact execDraw_mem h
    | loadRegs => exact execLoadRegs_mem h
    | bcd x => exact absurd rfl (hbcd x)
    | storeRegs x => exact absurd rfl (hstore x)
    | _ => cases hi

/-- Settles O51: `exec_setMem` says that the thirty others neither read nor write memory, `exec_mem` that
draw and load-regs do not write it either. -/
theorem memoryIsReachedByFourInstructions : Obligations.MemoryIsReachedByFourInstructions := by
  refine fun i s => ⟨fun hi m => exec_setMem hi s m, fun hbcd hstore t h a => ?_⟩
  rw [State.byteAt, exec_mem hbcd hstore h, State.byteAt]

end Sys2Proof.Machine

namespace Sys2Proof

/-! ## Decoding an encoded instruction (30_encoding.md R91, R94) -/

/-- Each instruction's word selects a row of the opcode map that builds the instruction. -/
theorem Laws.TableRow.all (i : Instr) : Laws.TableRow.Statement i := by
  cases i with
  | clearScreen => exact clearScreen
  | ret => exact ret
  | jump nnn => exact jump nnn
  | call nnn => exact call nnn
  | skipEq x nn => exact skipEq x nn
  | skipNeq x nn => exact skipNeq x nn
  | skipEqReg x y => exact skipEqReg x y
  | loadImm x nn => exact loadImm x nn
  | addImm x nn => exact addImm x nn
  | move x y => exact move x y
  | or x y => exact or x y
  | and x y => exact and x y
  | xor x y => exact xor x y
  | add x y => exact add x y
  | sub x y => exact sub x y
  | subn x y => exact subn x y
  | shr x y => exact shr x y
  | shl x y => exact shl x y
  | skipNeqReg x y => exact skipNeqReg x y
  | loadIndex nnn => exact loadIndex nnn
  | jumpOffset nnn => exact jumpOffset nnn
  | random x nn => exact random x nn
  | draw x y n => exact draw x y n
  | skipKeyPressed x => exact skipKeyPressed x
  | skipKeyNotPressed x => exact skipKeyNotPressed x
  | loadDelay x => exact loadDelay x
  | setDelay x => exact setDelay x
  | setSound x => exact setSound x
  | addIndex x => exact addIndex x
  | getKey x => exact getKey x
  | fontAddress x => exact fontAddress x
  | bcd x => exact bcd x
  | storeRegs x => exact storeRegs x
  | loadRegs x => exact loadRegs x

theorem decodeWord_encode (i : Instr) : decodeWord (encode i) = some i := by
  obtain ⟨r, hr, hselects, hbuild⟩ := Laws.TableRow.all i
  rw [decodeWord_of_selects hr hselects, hbuild]

/-- The two bytes of a word that decodes are read as its instruction, the bytes after them left (R64). -/
theorem decode_of_decodeWord {w : Word} {i : Instr} (h : decodeWord w = some i) (rest : List Byte) :
    decode (highByte w :: lowByte w :: rest) = .ok (i, rest) := by
  rw [decode, Machine.wordOfBytes_high_low, h]

/-- Settles O1: an encoded instruction's word selects the instruction's own row, and by `opcodeRows_apart`
no other. -/
theorem decodeEncodeGivesInstructionBack : Obligations.DecodeEncodeGivesInstructionBack :=
  fun i rest _ => ⟨decodeWord_encode i, decode_of_decodeWord (decodeWord_encode i) rest⟩

/-! ## Encoding what a word decodes as (30_encoding.md R91, R94) -/

/-! ### A word is its fields put together -/

theorem fieldOp_append_fieldNNN (w : Word) : fieldOp w ++ fieldNNN w = w :=
  BitVec.extractLsb'_append_extractLsb'

theorem fieldOp_append_fieldX (w : Word) : fieldOp w ++ fieldX w = highByte w :=
  BitVec.extractLsb'_append_extractLsb'_eq_extractLsb' rfl

theorem fields_append8 (w : Word) : fieldOp w ++ fieldX w ++ fieldNN w = w := by
  rw [fieldOp_append_fieldX]
  exact Machine.wordOfBytes_high_low w

theorem fields_append44 (w : Word) : fieldOp w ++ fieldX w ++ fieldY w ++ fieldN w = w := by
  have hhighY : highByte w ++ fieldY w = w.extractLsb' 4 12 :=
    BitVec.extractLsb'_append_extractLsb'_eq_extractLsb' rfl
  rw [fieldOp_append_fieldX, hhighY]
  exact BitVec.extractLsb'_append_extractLsb'

/-! ### A selected row fixes its fixed fields, and its word is made of them and the cut out ones -/

theorem fieldOp_of_maskOp {w : Word} {op : Nibble} (h : w &&& 0xF000#16 = op ++ 0#12) :
    fieldOp w = op := by
  rw [← fieldOp_append_fieldNNN w, maskOp_packNNN] at h
  exact (BitVec.append_left_inj _).mp h

theorem packNNN_of_maskOp {w : Word} {op : Nibble} (h : w &&& 0xF000#16 = op ++ 0#12) :
    op ++ fieldNNN w = w := by
  rw [← fieldOp_of_maskOp h]
  exact fieldOp_append_fieldNNN w

theorem pack8_of_maskOp {w : Word} {op : Nibble} (h : w &&& 0xF000#16 = op ++ 0#12) :
    op ++ regBits (regX w) ++ fieldNN w = w := by
  rw [← fieldOp_of_maskOp h]
  exact fields_append8 w

theorem pack44_of_maskOp {w : Word} {op : Nibble} (h : w &&& 0xF000#16 = op ++ 0#12) :
    op ++ regBits (regX w) ++ regBits (regY w) ++ fieldN w = w := by
  rw [← fieldOp_of_maskOp h]
  exact fields_append44 w

theorem pack44_of_maskOpN {w : Word} {op n : Nibble} (h : w &&& 0xF00F#16 = op ++ 0#4 ++ 0#4 ++ n) :
    op ++ regBits (regX w) ++ regBits (regY w) ++ n = w := by
  rw [← fields_append44 w, maskOpN_pack44] at h
  have hn : fieldN w = n := by simpa only [fieldN_pack44] using congrArg fieldN h
  have hop : fieldOp w = op := by
    rwa [hn, BitVec.append_left_inj, BitVec.append_left_inj, BitVec.append_left_inj] at h
  rw [← hop, ← hn]
  exact fields_append44 w

theorem pack8_of_maskOpLow {w : Word} {op : Nibble} {nn : Byte}
    (h : w &&& 0xF0FF#16 = op ++ 0#4 ++ nn) : op ++ regBits (regX w) ++ nn = w := by
  rw [← fields_append8 w, maskOpLow_pack8] at h
  have hnn : fieldNN w = nn := by simpa only [fieldNN_pack8] using congrArg fieldNN h
  have hop : fieldOp w = op := by rwa [hnn, BitVec.append_left_inj, BitVec.append_left_inj] at h
  rw [← hop, ← hnn]
  exact fields_append8 w

/-! ### Row by row -/

/-- A word that selects the row is the word of the instruction the row builds from it. -/
def OpcodeRow.Reencodes (r : OpcodeRow) : Prop :=
  ∀ w, w &&& r.mask = r.bits → encode (r.build w) = w

theorem eq_of_maskAll {w v : Word} (h : w &&& 0xFFFF#16 = v) : v = w := by
  rw [← h]
  exact BitVec.and_allOnes

theorem opcodeRowsLow_reencode : ∀ r ∈ opcodeRowsLow, r.Reencodes := by
  simp only [opcodeRowsLow, List.forall_mem_cons]
  exact ⟨
    fun _ h => eq_of_maskAll h,      -- clear-screen
    fun _ h => eq_of_maskAll h,      -- return
    fun _ h => packNNN_of_maskOp h,  -- jump
    fun _ h => packNNN_of_maskOp h,  -- call
    fun _ h => pack8_of_maskOp h,    -- skip-eq
    fun _ h => pack8_of_maskOp h,    -- skip-neq
    fun _ h => pack44_of_maskOpN h,  -- skip-eq-reg
    fun _ h => pack8_of_maskOp h,    -- load-imm
    fun _ h => pack8_of_maskOp h,    -- add-imm
    fun _ h => pack44_of_maskOpN h,  -- move
    fun _ h => pack44_of_maskOpN h,  -- or
    fun _ h => pack44_of_maskOpN h,  -- and
    fun _ h => pack44_of_maskOpN h,  -- xor
    fun _ h => pack44_of_maskOpN h,  -- add
    fun _ h => pack44_of_maskOpN h,  -- sub
    fun _ h => pack44_of_maskOpN h,  -- subn
    fun _ h => pack44_of_maskOpN h,  -- shr
    fun _ h => pack44_of_maskOpN h,  -- shl
    nofun⟩

theorem opcodeRowsHigh_reencode : ∀ r ∈ opcodeRowsHigh, r.Reencodes := by
  simp only [opcodeRowsHigh, List.forall_mem_cons]
  exact ⟨
    fun _ h => pack44_of_maskOpN h,   -- skip-neq-reg
    fun _ h => packNNN_of_maskOp h,   -- load-index
    fun _ h => packNNN_of_maskOp h,   -- jump-offset
    fun _ h => pack8_of_maskOp h,     -- random
    fun _ h => pack44_of_maskOp h,    -- draw
    fun _ h => pack8_of_maskOpLow h,  -- skip-key-pressed
    fun _ h => pack8_of_maskOpLow h,  -- skip-key-not-pressed
    fun _ h => pack8_of_maskOpLow h,  -- load-delay
    fun _ h => pack8_of_maskOpLow h,  -- set-delay
    fun _ h => pack8_of_maskOpLow h,  -- set-sound
    fun _ h => pack8_of_maskOpLow h,  -- add-index
    fun _ h => pack8_of_maskOpLow h,  -- get-key
    fun _ h => pack8_of_maskOpLow h,  -- font-address
    fun _ h => pack8_of_maskOpLow h,  -- bcd
    fun _ h => pack8_of_maskOpLow h,  -- store-regs
    fun _ h => pack8_of_maskOpLow h,  -- load-regs
    nofun⟩

theorem encode_of_decodeWord {w : Word} {i : Instr} (h : decodeWord w = some i) : encode i = w := by
  obtain ⟨r, hr, hselects, rfl⟩ := decodeWord_some h
  have hmask : w &&& r.mask = r.bits := eq_of_beq hselects
  obtain hr | hr := List.mem_append.mp hr
  · exact opcodeRowsLow_reencode r hr w hmask
  · exact opcodeRowsHigh_reencode r hr w hmask

/-! ### Operands are as wide as their fields (30_encoding.md R93) -/

theorem regInRange_val (r : Reg) : regInRange r.val = true := decide_eq_true r.isLt

theorem immInRange_toNat {n : Nat} (v : BitVec n) : immInRange n v.toNat = true :=
  decide_eq_true v.isLt

theorem Instr.wellFormed_eq_true (i : Instr) : i.wellFormed = true := by
  cases i <;> simp [Instr.wellFormed, regInRange_val, immInRange_toNat]

/-- Settles O2: row by row, the fields a selected row fixes and those it cuts out make up the word again. -/
theorem decodedWordReencodesToItself : Obligations.DecodedWordReencodesToItself :=
  fun _ i h => ⟨encode_of_decodeWord h, i.wellFormed_eq_true⟩

end Sys2Proof

namespace Sys2Proof.Machine

/-! ## What is refused (20_memory.md R72, 30_encoding.md R98) -/

theorem complete_ne_refused (o : Except Fault State) (r : Refusal) : complete o ≠ .refused r := by
  cases o <;> nofun

theorem execDraw_ne_refused (x y : Reg) (n : Nibble) (s : State) (r : Refusal) :
    execDraw x y n s ≠ .refused r := by
  obtain hb | hb := Nat.lt_or_ge 4096 (s.cursor + n.toNat)
  · rw [execDraw_error hb]; nofun
  · rw [execDraw_ok hb]; nofun

theorem execRet_ne_refused (s : State) (r : Refusal) : execRet s ≠ .refused r := by
  obtain hs | ⟨st, v, hs⟩ := s.stack_empty_or_concat
  · rw [execRet_empty hs]; nofun
  · rw [execRet_pop hs]; nofun

theorem execGetKey_ne_refused (x : Reg) (s : State) (r : Refusal) : execGetKey x s ≠ .refused r := by
  cases hk : s.firstKey with
  | some k => rw [execGetKey_keyDown hk]; nofun
  | none => rw [execGetKey_noKey hk]; nofun

/-- Every instruction has a meaning (R98). -/
theorem exec_ne_refused (i : Instr) (s : State) (r : Refusal) : exec i s ≠ .refused r := by
  cases i with
  | ret => exact execRet_ne_refused s r
  | getKey x => exact execGetKey_ne_refused x s r
  | draw x y n => exact execDraw_ne_refused x y n s r
  | bcd | storeRegs | loadRegs => exact complete_ne_refused _ r
  | _ => nofun

theorem runWord_ne_refused (w : Word) (s : State) (r : Refusal) : runWord w s ≠ .refused r := by
  unfold runWord
  split
  · exact exec_ne_refused _ s r
  · nofun

theorem tick_ne_refused (s : State) (r : Refusal) : tick s ≠ .refused r := by
  unfold tick
  split
  · nofun
  · split
    · nofun
    · exact runWord_ne_refused _ _ r

theorem loadProgram_eq_refused_iff {image : List Byte} {s : State} {r : Refusal} :
    loadProgram image s = .refused r ↔ r = .loadAfterTick ∧ s.ticked = true := by
  unfold loadProgram
  split
  · next h => simp [h, eq_comm]
  · next h => simp [h]

/-- Of the five events only a program load can be refused. -/
theorem apply_eq_refused_iff {e : Event} {s : State} {r : Refusal} :
    apply e s = .refused r ↔
      r = .loadAfterTick ∧ s.ticked = true ∧ ∃ image, e = .loadProgram image := by
  cases e with
  | loadProgram image => simp [apply, loadProgram_eq_refused_iff]
  | tick => simp [apply, tick_ne_refused]
  | reset | tickTimers | setKeys => simp [apply]

/-- Settles O11: `apply_eq_refused_iff` of the next event; taking it from the schedule leaves the mark of a
tick. -/
theorem stepRefusesExactlyALateLoad : Obligations.StepRefusesExactlyALateLoad :=
  fun _ _ => apply_eq_refused_iff

end Sys2Proof.Machine

namespace Sys2Proof

/-! ## The rows a word selects (30_encoding.md R94, 40_cycle.md R123) -/

/-- The rows a word selects are rows of the map, and two of them would have to agree on a bit on which they
are apart. -/
theorem not_selects_two_rows {w : Word} {p q : OpcodeRow} {rest : List OpcodeRow} :
    opcodeRows.filter (fun r => r.selects w) ≠ p :: q :: rest := by
  intro hrows
  have hapart := opcodeRows_apart.filter (fun r => r.selects w)
  have hselects : ∀ r ∈ p :: q :: rest, r.selects w = true := fun r hr => by
    rw [← hrows] at hr
    exact (List.mem_filter.mp hr).2
  rw [hrows] at hapart
  have hpq : p.apart q = true := List.rel_of_pairwise_cons hapart List.mem_cons_self
  have hq : q.selects w = false := OpcodeRow.not_both hpq (hselects p List.mem_cons_self)
  cases (hselects q (List.mem_cons_of_mem p List.mem_cons_self)).symm.trans hq

/-- Settles O3, by the number of rows selected: none by `decodeWord_none`, one by `decodeWord_of_selects`,
and by `opcodeRows_apart` never two. -/
theorem decodeAnswersTheUniqueRow : Obligations.DecodeAnswersTheUniqueRow := by
  intro w
  rcases hrows : opcodeRows.filter (fun r => r.selects w) with _ | ⟨r, _ | ⟨q, rest⟩⟩
  · rw [hrows]
    have hnone := List.filter_eq_nil_iff.mp hrows
    exact decodeWord_none.mpr fun r hr => eq_false_of_ne_true (hnone r hr)
  · rw [hrows]
    have hr : r ∈ opcodeRows.filter (fun r => r.selects w) := hrows ▸ List.mem_singleton_self r
    obtain ⟨hmem, hselects⟩ := List.mem_filter.mp hr
    exact decodeWord_of_selects hmem hselects
  · exact absurd hrows not_selects_two_rows

end Sys2Proof

namespace Sys2Proof.Machine

/-! ## A step that comes to a tick (40_cycle.md R120 to R125) -/

theorem runWord_of_decodeWord_some {w : Word} {i : Instr} (h : decodeWord w = some i) (s : State) :
    runWord w s = exec i s := by
  rw [runWord, h]

theorem runWord_of_decodeWord_none {w : Word} (h : decodeWord w = none) (s : State) :
    runWord w s = .next (s.report (.invalidInstruction w)) := by
  rw [runWord, h]

/-- The schedule is no part of what a tick fetches. -/
theorem step_fetched {s : State} (h : AboutToTick s) (hpc : s.pc.toNat < 4095) :
    step s = runWord (wordAtPc s) { s with schedule := afterNext s }.advance :=
  (step_of_aboutToTick h).trans (tick_fetched (s := { s with schedule := afterNext s }) h.1 hpc)

theorem step_unfetched {s : State} (h : AboutToTick s) (hpc : 4095 ≤ s.pc.toNat) :
    step s = .fault (.memOutOfBounds (max s.pc.toNat 4096)) :=
  (step_of_aboutToTick h).trans (tick_unfetched (s := { s with schedule := afterNext s }) h.1 hpc)

/-- Settles O7: `fetchWord_ok` up to 4094; above, `step_unfetched` at the larger of pc and 4096. -/
theorem fetchOutsideMemoryIsFatal : Obligations.FetchOutsideMemoryIsFatal := by
  refine fun s h => ⟨fun hpc => s.fetchWord_ok (by omega), fun hpc => ?_, fun hpc => ?_⟩
  · rw [step_unfetched h (by omega), hpc]; rfl
  · rw [step_unfetched h (by omega), Nat.max_eq_left hpc]

/-- Settles O8: `step_fetched`, with the decoded instruction for the word. -/
theorem stepRunsDecodedInstruction : Obligations.StepRunsDecodedInstruction :=
  fun _ _ h hpc hdecode _ => (step_fetched h hpc).trans (runWord_of_decodeWord_some hdecode _)

/-- Settles O9: `step_fetched`, with the report for the word; it is the only change to the advanced state. -/
theorem unmatchedWordIsReportedAndSkipped : Obligations.UnmatchedWordIsReportedAndSkipped :=
  fun _ h hpc hdecode =>
    ⟨_, (step_fetched h hpc).trans (runWord_of_decodeWord_none hdecode _), rfl, rfl, h.1, rfl⟩

/-! ## The end of a run (92_eei_decisions.md D17) -/

/-- Settles O32: the step is the jump, whose target is the pc it started from; what else it changes is no
part of `AtSelfLoop`. -/
theorem selfLoopChangesNothing : Obligations.SelfLoopChangesNothing := by
  intro s hloop htick
  refine ⟨?_, hloop⟩
  obtain ⟨-, hpc, nnn, hdecode, htarget⟩ := hloop
  have himm : immAddr nnn = s.pc := htarget.symm
  rw [stepRunsDecodedInstruction s _ htick hpc hdecode (Instr.wellFormed_eq_true _), exec, execJump, himm]
  rfl

/-! ## FATAL (40_cycle.md R127) -/

theorem tick_of_fatal {s : State} (h : s.run = .fatal) : tick s = .next s.clearReport := by
  rw [tick, h]

theorem tickTimers_of_fatal {s : State} (h : s.run = .fatal) : tickTimers s = s := by
  rw [tickTimers, h]

theorem setKeysEvent_of_fatal {s : State} (h : s.run = .fatal) (p : Vector Bool 16) :
    setKeysEvent p s = s := by
  rw [setKeysEvent, h]

/-- Settles O13: the FATAL branch of each event; reset sets the run state whatever it was. -/
theorem fatalIgnoresAllButReset : Obligations.FatalIgnoresAllButReset :=
  fun _ p h => ⟨tick_of_fatal h, tickTimers_of_fatal h, setKeysEvent_of_fatal h p, rfl⟩

/-! ## A word placed where the next step fetches (log entry 20) -/

theorem State.withFetchWord_toNat (s : State) (w : Word) :
    s.withFetchWord 16 w.toNat = s.placeNext w := by
  rw [State.withFetchWord, Nat.mod_eq_of_lt w.isLt, BitVec.ofNat_toNat, BitVec.setWidth_eq]

/-- Where the pc has no two bytes to fetch it is put back to 0x200. -/
theorem State.readyToFetch_pc_lt (s : State) : s.readyToFetch.pc.toNat < 4095 := by
  have hpc : s.readyToFetch.pc = if 4094 < s.pc.toNat then 0x0200#16 else s.pc := rfl
  rw [hpc]
  split
  · decide
  · omega

/-- Both bytes of a word placed at the pc read back: the second write is at another address. -/
theorem State.wordAtPc_placeWord {s : State} (hwf : Memory.wf s.mem = true) (hpc : s.pc.toNat < 4095)
    (w : Word) : wordAtPc (s.placeWord s.pc.toNat w) = w := by
  have hwf' : Memory.wf (Memory.write s.mem s.pc.toNat (highByte w)) = true :=
    Memory.wf_write hwf (by omega) _
  have hbyte (c : Nat) : (s.placeWord s.pc.toNat w).byteAt c =
      if c = s.pc.toNat + 1 then lowByte w else if c = s.pc.toNat then highByte w else s.byteAt c := by
    rw [State.placeWord, State.byteAt, State.setMem_mem, Memory.read_write hwf', Memory.read_write hwf,
      State.byteAt]
  have hhigh : (s.placeWord s.pc.toNat w).byteAt s.pc.toNat = highByte w := by simp [hbyte]
  have hlow : (s.placeWord s.pc.toNat w).byteAt (s.pc.toNat + 1) = lowByte w := by simp [hbyte]
  have hsame : (s.placeWord s.pc.toNat w).pc = s.pc := rfl
  rw [wordAtPc, hsame, hhigh, hlow, wordOfBytes_high_low]

/-- Once a word is placed, the next step fetches and runs it. -/
theorem step_placeNext {s : State} (hwf : Memory.wf s.mem = true) (w : Word) :
    step (s.placeNext w) = runWord w (s.placeNext w).advance := by
  have hword : wordAtPc (s.placeNext w) = w :=
    State.wordAtPc_placeWord (s := s.readyToFetch) hwf s.readyToFetch_pc_lt w
  rw [step_of_schedule_ticks rfl, tick_fetched (s := s.placeNext w) rfl s.readyToFetch_pc_lt, hword]

/-- Settles O60: the word placed is fetched by `step_placeNext` and decodes as the instruction by
`decodeWord_encode`. -/
theorem placedInstructionIsRunNext : Obligations.PlacedInstructionIsRunNext := by
  intro i s hwf
  rw [State.withFetchWord_toNat, step_placeNext hwf, runWord_of_decodeWord_some (decodeWord_encode i)]

end Sys2Proof.Machine

namespace Sys2Proof.Machine

/-! ## Control transfer (41_control_transfer.md R140 to R148) -/

/-- Settles O27: the targets as numbers are `immAddr_toNat` and `jumpOffset_target_toNat`. -/
theorem jumpsSetThePc : Obligations.JumpsSetThePc :=
  fun nnn s =>
    ⟨⟨s.setPc (immAddr nnn), rfl, immAddr_toNat nnn, rfl⟩,
      ⟨s.setPc (immAddr nnn + zext16 (s.reg 0)), rfl, jumpOffset_target_toNat nnn (s.reg 0), rfl⟩⟩

/-- Settles O28: the pc is pushed before it is set, so what is pushed is the address after the call. -/
theorem callPushesReturnAddress : Obligations.CallPushesReturnAddress :=
  fun nnn s => ⟨(s.push s.pc).setPc (immAddr nnn), rfl, rfl, immAddr_toNat nnn, rfl⟩

/-- Settles O29: the two cases of `execRet`, by what the stack is. -/
theorem returnPopsOrReports : Obligations.ReturnPopsOrReports :=
  fun _ => ⟨fun _ _ hpop => execRet_pop hpop, fun hempty => execRet_empty hempty⟩

/-- A skip whose Boolean test decides `p`: only the pc changes, by 2 exactly when `p` holds (R148). -/
theorem State.skipIf_eq_of_iff (s : State) {taken : Bool} {p : Prop} [Decidable p]
    (h : taken = true ↔ p) :
    s.skipIf taken = { s with pc := if p then s.pc + 2 else s.pc } := by
  rw [State.skipIf]
  split
  · next htaken => rw [if_pos (h.mp htaken), State.setPc]
  · next htaken => rw [if_neg (mt h.mpr htaken)]

/-- Settles O31: each skip is `skipIf` of the Boolean form of its comparison. -/
theorem skipsOnComparisons : Obligations.SkipsOnComparisons :=
  fun _ _ _ s =>
    ⟨congrArg Host.Outcome.next (s.skipIf_eq_of_iff beq_iff_eq),
      congrArg Host.Outcome.next (s.skipIf_eq_of_iff bne_iff_ne),
      congrArg Host.Outcome.next (s.skipIf_eq_of_iff beq_iff_eq),
      congrArg Host.Outcome.next (s.skipIf_eq_of_iff bne_iff_ne)⟩

end Sys2Proof.Machine

namespace Sys2Proof.Machine

/-! ## Load and add with an immediate or a register (42_load_alu.md R160 to R162) -/

/-- Settles O20: both are one register write, of which `onlyRegs_setReg` is the frame. -/
theorem loadImmAndMoveWriteDestination : Obligations.LoadImmAndMoveWriteDestination :=
  ⟨fun x nn s => ⟨s.setReg x nn, rfl, s.setReg_reg_self x nn, onlyRegs_setReg s x nn⟩,
    fun x y s => ⟨s.setReg x (s.reg y), rfl, s.setReg_reg_self x (s.reg y), onlyRegs_setReg s x (s.reg y)⟩⟩

/-- Settles O21: one register write of the byte sum, which `BitVec.toNat_add` gives modulo 256; no flag is
written after it, so `X = 15` is a case like the others. -/
theorem addImmWrapsWithoutFlag : Obligations.AddImmWrapsWithoutFlag := by
  intro x nn s
  refine ⟨s.setReg x (s.reg x + nn), rfl, ?_, onlyRegs_setReg s x (s.reg x + nn)⟩
  rw [State.setReg_reg_self, BitVec.toNat_add]

end Sys2Proof.Machine

namespace Sys2Proof.Machine

/-! ## No memory access moves I (43_index_memory.md R186, 92_eei_decisions.md D24) -/

theorem execBcd_index {x : Reg} {s t : State} (h : execBcd x s = .next t) : t.index = s.index := by
  obtain hb | hb := Nat.lt_or_ge (s.cursor + 2) 4096
  · rw [execBcd_ok hb] at h; cases h; rfl
  · rw [execBcd_error hb] at h; cases h

theorem execStoreRegs_index {x : Reg} {s t : State} (h : execStoreRegs x s = .next t) :
    t.index = s.index := by
  obtain hb | hb := Nat.lt_or_ge (s.cursor + x.val) 4096
  · rw [execStoreRegs_ok hb] at h; cases h; rfl
  · rw [execStoreRegs_error hb] at h; cases h

theorem execLoadRegs_index {x : Reg} {s t : State} (h : execLoadRegs x s = .next t) :
    t.index = s.index := by
  obtain hb | hb := Nat.lt_or_ge (s.cursor + x.val) 4096
  · rw [execLoadRegs_ok hb] at h; cases h; rfl
  · rw [execLoadRegs_error hb] at h; cases h

theorem execDraw_index {x y : Reg} {n : Nibble} {s t : State} (h : execDraw x y n s = .next t) :
    t.index = s.index := by
  obtain hb | hb := Nat.lt_or_ge 4096 (s.cursor + n.toNat)
  · rw [execDraw_error hb] at h; cases h
  · rw [execDraw_ok hb] at h; cases h; rfl

/-- Settles O52: each way of changing the pc leaves `I` alone; of the instructions that change no pc, the
four that reach memory do by the lemmas above, and the others write a field other than `I`. -/
theorem indexWrittenByThreeInstructions : Obligations.IndexWrittenByThreeInstructions := by
  intro i s t hloadIndex haddIndex hfontAddress h
  cases exec_next h with
  | skip _ taken => rw [State.skipIf_eq, State.setPc_index]
  | keyDown | noKey | jump | call | jumpOffset | retEmpty | retPop => rfl
  | data hpc =>
    cases i with
    | loadIndex nnn => exact absurd rfl (hloadIndex nnn)
    | addIndex x => exact absurd rfl (haddIndex x)
    | fontAddress x => exact absurd rfl (hfontAddress x)
    | draw => exact execDraw_index h
    | bcd => exact execBcd_index h
    | storeRegs => exact execStoreRegs_index h
    | loadRegs => exact execLoadRegs_index h
    | clearScreen | loadImm | addImm | move | or | and | xor | add | sub | subn | shr | shl | random
    | loadDelay | setDelay | setSound => cases h; rfl
    | ret | jump | call | jumpOffset | getKey | skipEq | skipNeq | skipEqReg | skipNeqReg
    | skipKeyPressed | skipKeyNotPressed => cases hpc

/-! ## What I is set to (43_index_memory.md R180, R182) -/

theorem lowNibble_val (v : Byte) : (lowNibble v).val = v.toNat % 16 :=
  BitVec.extractLsb'_toNat 0 4 v

/-- A glyph lies below the program region, so its address fits the 16 bits of `I` (R6, R70). -/
theorem fontGlyphAddress_toNat (g : Fin 16) :
    (BitVec.ofNat 16 (fontGlyphAddress g)).toNat = fontBase + 5 * g.val := by
  have hbase := fontBase_bound
  rw [BitVec.toNat_ofNat, fontGlyphAddress, Nat.mod_eq_of_lt (by omega)]

/-- Settles O33: both are one write of `I`, of which `immAddr_toNat` and `fontGlyphAddress_toNat` give the
number. -/
theorem loadIndexAndFontAddressSetIndex : Obligations.LoadIndexAndFontAddressSetIndex := by
  refine ⟨fun nnn s => ⟨s.setIndex (immAddr nnn), rfl, immAddr_toNat nnn, rfl⟩, fun x s => ?_⟩
  refine ⟨s.setIndex (BitVec.ofNat 16 (fontGlyphAddress (lowNibble (s.reg x)))), rfl, ?_, rfl⟩
  rw [State.setIndex_index, fontGlyphAddress_toNat, lowNibble_val]

end Sys2Proof.Machine

namespace Sys2Proof.Machine

/-! ## Display (44_display.md R200 to R204) -/

/-- Settles O42: `execClearScreen` puts the blank framebuffer in place, whose cells are `cell_blank`. -/
theorem clearScreenUnsetsEveryCell : Obligations.ClearScreenUnsetsEveryCell :=
  fun s => ⟨s.setFb Framebuffer.blank, rfl, Framebuffer.cell_blank, rfl⟩

theorem flagByte_eq_one_iff {b : Bool} : flagByte b = 1 ↔ b = true := by
  cases b <;> decide

theorem flagByte_eq_zero_iff {b : Bool} : flagByte b = 0 ↔ b = false := by
  cases b <;> decide

/-- What a draw in bounds leaves on the framebuffer, and its collision bit. -/
def State.drawCanvas (s : State) (x y : Reg) (n : Nibble) : Canvas :=
  drawSprite s.fb ((s.reg x).toNat % 64) ((s.reg y).toNat % 32) (spriteAt s n)

theorem State.drawCanvas_collision (s : State) (x y : Reg) (n : Nibble) :
    (s.drawCanvas x y n).collision = true ↔
      ∃ row col, drawCovers s x y n row col = true ∧ Framebuffer.cell s.fb row col = true :=
  drawSprite_collision ..

theorem State.drawCanvas_no_collision (s : State) (x y : Reg) (n : Nibble) :
    (s.drawCanvas x y n).collision = false ↔
      ∀ row col, drawCovers s x y n row col = true → Framebuffer.cell s.fb row col = false := by
  rw [← Bool.not_eq_true, s.drawCanvas_collision]
  simp only [not_exists, not_and, Bool.not_eq_true]

/-- The state a draw in bounds answers (R201). -/
def State.afterDraw (s : State) (x y : Reg) (n : Nibble) : State :=
  (s.setFb (s.drawCanvas x y n).fb).setReg flagReg (flagByte (s.drawCanvas x y n).collision)

theorem exec_draw_ok {x y : Reg} {n : Nibble} {s : State} (h : s.cursor + n.toNat ≤ 4096) :
    exec (.draw x y n) s = .next (s.afterDraw x y n) :=
  execDraw_ok h

theorem State.afterDraw_cell (s : State) (x y : Reg) (n : Nibble) (row col : Nat) :
    Framebuffer.cell (s.afterDraw x y n).fb row col =
      (Framebuffer.cell s.fb row col ^^ drawCovers s x y n row col) :=
  drawSprite_cell ..

theorem State.afterDraw_flag (s : State) (x y : Reg) (n : Nibble) :
    (s.afterDraw x y n).reg flagReg = flagByte (s.drawCanvas x y n).collision :=
  State.setReg_reg_self ..

theorem State.afterDraw_flag_eq_one_iff (s : State) (x y : Reg) (n : Nibble) :
    (s.afterDraw x y n).reg flagReg = 1 ↔
      ∃ row col, drawCovers s x y n row col = true ∧ Framebuffer.cell s.fb row col = true := by
  rw [s.afterDraw_flag, flagByte_eq_one_iff, s.drawCanvas_collision]

theorem State.afterDraw_flag_eq_zero_iff (s : State) (x y : Reg) (n : Nibble) :
    (s.afterDraw x y n).reg flagReg = 0 ↔
      ∀ row col, drawCovers s x y n row col = true → Framebuffer.cell s.fb row col = false := by
  rw [s.afterDraw_flag, flagByte_eq_zero_iff, s.drawCanvas_no_collision]

theorem State.afterDraw_reg_of_ne (s : State) (x y : Reg) (n : Nibble) {r : Reg} (h : r ≠ flagReg) :
    (s.afterDraw x y n).reg r = s.reg r :=
  State.setReg_reg_of_ne (s.setFb _) _ h

/-- Settles O43: the cells and the flag of `afterDraw`; its two writes touch the display and the flag
register alone. -/
theorem drawXorsTheClippedSprite : Obligations.DrawXorsTheClippedSprite :=
  fun x y n s h =>
    ⟨s.afterDraw x y n, exec_draw_ok h, s.afterDraw_cell x y n, (s.afterDraw_flag_eq_one_iff x y n).mpr,
      (s.afterDraw_flag_eq_zero_iff x y n).mpr, fun _ hr => s.afterDraw_reg_of_ne x y n hr, rfl⟩

/-- With neither coordinate in the flag register, the same draw covers the same cells again: a draw writes
no memory, no `I` and no other register. -/
theorem State.drawCovers_afterDraw (s : State) {x y : Reg} (n : Nibble) (hx : x ≠ flagReg)
    (hy : y ≠ flagReg) (row col : Nat) :
    drawCovers (s.afterDraw x y n) x y n row col = drawCovers s x y n row col := by
  have hsprite : spriteAt (s.afterDraw x y n) n = spriteAt s n := rfl
  rw [drawCovers, s.afterDraw_reg_of_ne x y n hx, s.afterDraw_reg_of_ne x y n hy, hsprite, drawCovers]

/-- The second draw xors every cell with the bit the first one did (R204, C13). -/
theorem State.afterDraw_afterDraw_fb (s : State) {x y : Reg} (n : Nibble) (hx : x ≠ flagReg)
    (hy : y ≠ flagReg) : ((s.afterDraw x y n).afterDraw x y n).fb = s.fb := by
  apply Framebuffer.ext_cell
  intro row col
  rw [State.afterDraw_cell, State.afterDraw_cell, s.drawCovers_afterDraw n hx hy, Bool.xor_assoc,
    Bool.xor_self, Bool.xor_false]

/-- On a clear screen a draw leaves the clipped sprite itself. -/
theorem State.afterDraw_cell_of_blank {s : State} (h : s.fb = Framebuffer.blank) (x y : Reg)
    (n : Nibble) (row col : Nat) :
    Framebuffer.cell (s.afterDraw x y n).fb row col = drawCovers s x y n row col := by
  rw [State.afterDraw_cell, h, Framebuffer.cell_blank, Bool.false_xor]

/-- Settles O44: `afterDraw` twice. From a clear screen the first draw meets no set cell, and the second
meets exactly the cells the first one set. -/
theorem drawTwiceRestoresTheDisplay : Obligations.DrawTwiceRestoresTheDisplay := by
  intro x y n s hx hy h
  refine ⟨s.afterDraw x y n, (s.afterDraw x y n).afterDraw x y n, exec_draw_ok h, exec_draw_ok h,
    s.afterDraw_afterDraw_fb n hx hy, fun hblank => ⟨?first, ?second⟩⟩
  case first =>
    rw [State.afterDraw_flag_eq_zero_iff, hblank]
    exact fun row col _ => Framebuffer.cell_blank row col
  case second =>
    simp only [State.afterDraw_flag_eq_one_iff, s.drawCovers_afterDraw n hx hy,
      State.afterDraw_cell_of_blank hblank, and_self]

end Sys2Proof.Machine

namespace Sys2Proof.Machine

/-! ## Keypad and timers (45_keypad_timers.md R220 to R225) -/

/-- The key a register's value selects is the one with the number of its low nibble (R220). -/
theorem State.keyPressed_eq (s : State) {v : Byte} {k : Fin 16} (h : k.val = v.toNat % 16) :
    s.keyPressed v = s.keys[k.val] := by
  have hk : lowNibble v = k := Fin.ext ((lowNibble_val v).trans h.symm)
  exact congrArg (fun j : Fin 16 => s.keys[j.val]) hk

/-- Settles O45: each key skip is `skipIf` of the flag `State.keyPressed_eq` names, or of its negation. -/
theorem skipsOnKeys : Obligations.SkipsOnKeys := by
  intro x k s hk
  have hpressed : s.keyPressed (s.reg x) = true ↔ s.keys[k.val] = true := by
    rw [s.keyPressed_eq hk]
  have hnotPressed : (!s.keyPressed (s.reg x)) = true ↔ s.keys[k.val] = false := by
    rw [s.keyPressed_eq hk, Bool.not_eq_true']
  exact ⟨congrArg Host.Outcome.next (s.skipIf_eq_of_iff hpressed),
    congrArg Host.Outcome.next (s.skipIf_eq_of_iff hnotPressed)⟩

/-- Settles O48: load-delay is one register write, of which `onlyRegs_setReg` is the frame; the other two
write one timer each. -/
theorem timerInstructionsMoveBytes : Obligations.TimerInstructionsMoveBytes :=
  fun x s =>
    ⟨⟨s.setReg x s.delay, rfl, s.setReg_reg_self x s.delay, onlyRegs_setReg s x s.delay⟩, rfl, rfl⟩

end Sys2Proof.Machine

namespace Sys2Proof.Machine

/-! ## Which instructions complete, which are fatal (60_exceptions.md R242, R245) -/

/-- A return completes on any stack: the empty one is only reported (R140, R248). -/
theorem execRet_completes (s : State) : ∃ t, execRet s = .next t := by
  obtain hs | ⟨st, v, hs⟩ := s.stack_empty_or_concat
  · exact ⟨_, execRet_empty hs⟩
  · exact ⟨_, execRet_pop hs⟩

/-- get-key completes on any keypad: it takes a key or rewinds the pc (R222). -/
theorem execGetKey_completes (x : Reg) (s : State) : ∃ t, execGetKey x s = .next t := by
  cases hk : s.firstKey with
  | some k => exact ⟨_, execGetKey_keyDown hk⟩
  | none => exact ⟨_, execGetKey_noKey hk⟩

/-- Settles O41: the four instructions that reach memory by their lemmas in and out of bounds; the others
are always in bounds and answer a next state. -/
theorem instructionsCompleteExactlyInBounds : Obligations.InstructionsCompleteExactlyInBounds := by
  intro i s
  cases i with
  | draw => exact ⟨fun h => ⟨_, execDraw_ok h⟩, fun h => ⟨_, execDraw_error (Nat.lt_of_not_le h)⟩⟩
  | bcd => exact ⟨fun h => ⟨_, execBcd_ok h⟩, fun h => ⟨_, execBcd_error (Nat.le_of_not_lt h)⟩⟩
  | storeRegs =>
    exact ⟨fun h => ⟨_, execStoreRegs_ok h⟩, fun h => ⟨_, execStoreRegs_error (Nat.le_of_not_lt h)⟩⟩
  | loadRegs =>
    exact ⟨fun h => ⟨_, execLoadRegs_ok h⟩, fun h => ⟨_, execLoadRegs_error (Nat.le_of_not_lt h)⟩⟩
  | ret => exact ⟨fun _ => execRet_completes s, fun h => absurd trivial h⟩
  | getKey x => exact ⟨fun _ => execGetKey_completes x s, fun h => absurd trivial h⟩
  | _ => exact ⟨fun _ => ⟨_, rfl⟩, fun h => absurd trivial h⟩

theorem exec_faults_iff {i : Instr} {s : State} : Faults (exec i s) ↔ ¬ accessesInBounds i s := by
  obtain ⟨hcompletes, hfatal⟩ := instructionsCompleteExactlyInBounds i s
  constructor
  · rintro ⟨f, hf⟩ hin
    obtain ⟨t, ht⟩ := hcompletes hin
    cases hf.symm.trans ht
  · intro hout
    obtain ⟨a, ha⟩ := hfatal hout
    exact ⟨_, ha⟩

/-- Whether accesses are in bounds is decided by `I` alone. -/
theorem accessesInBounds_congr {i : Instr} {s t : State} (h : t.cursor = s.cursor) :
    accessesInBounds i t ↔ accessesInBounds i s := by
  simp only [accessesInBounds, h]

/-- A fetched word is fatal exactly if it decodes as an instruction out of bounds; an unmatched word is
only reported (R125). -/
theorem runWord_faults_iff {w : Word} {s : State} :
    Faults (runWord w s) ↔ ∃ i, decodeWord w = some i ∧ ¬ accessesInBounds i s := by
  cases hd : decodeWord w with
  | some i => simp [runWord_of_decodeWord_some hd, exec_faults_iff]
  | none => simp [runWord_of_decodeWord_none hd, Faults]

/-- Settles O10: a tick that cannot fetch is `step_unfetched`; one that can runs the word at pc, with `I` as
it was before the fetch. -/
theorem tickFaultsExactlyOutOfBounds : Obligations.TickFaultsExactlyOutOfBounds := by
  intro s h
  obtain hpc | hpc := Nat.lt_or_ge s.pc.toNat 4095
  · have hcursor : { s with schedule := afterNext s }.advance.cursor = s.cursor := rfl
    rw [step_fetched h hpc, runWord_faults_iff]
    simp only [accessesInBounds_congr hcursor, Nat.not_le_of_lt hpc, false_or]
  · exact iff_of_true ⟨_, step_unfetched h hpc⟩ (.inl hpc)

/-! ## The timer unit and the host's keypad event (60_exceptions.md R255, R258) -/

theorem countDown_toNat (v : Byte) : (countDown v).toNat = v.toNat - 1 := by
  rw [countDown]
  split <;> bv_omega

theorem tickTimers_of_running {s : State} (h : s.run = .running) :
    tickTimers s = (s.setDelay (countDown s.delay)).setSound (countDown s.sound) := by
  rw [tickTimers, h]

theorem setKeysEvent_of_running {s : State} (h : s.run = .running) (p : Vector Bool 16) :
    setKeysEvent p s = s.setKeys p := by
  rw [setKeysEvent, h]

/-- Settles O14: running, each timer is written with its `countDown`, and no other field is. -/
theorem tickTimersCountsBothDown : Obligations.TickTimersCountsBothDown := by
  refine fun s => ⟨tickTimers_of_fatal, fun h => ?_⟩
  rw [tickTimers_of_running h]
  exact ⟨countDown_toNat s.delay, countDown_toNat s.sound, rfl⟩

/-- Settles O16: running, the keypad is replaced whole by the one given, and no other field is written. -/
theorem setKeysReplacesSnapshot : Obligations.SetKeysReplacesSnapshot := by
  refine fun s p => ⟨fun h => setKeysEvent_of_fatal h p, fun h => ?_⟩
  rw [setKeysEvent_of_running h]
  exact ⟨rfl, fun _ => rfl⟩

/-- A step that comes to tick_timers counts both timers down and takes the event from the schedule. -/
theorem step_of_tickTimers {s : State} {rest : Schedule} (hrun : s.run = .running)
    (hschedule : s.schedule = .cons .tickTimers rest) :
    ∃ t, step s = .next t ∧ t.delay.toNat = s.delay.toNat - 1 ∧ t.sound.toNat = s.sound.toNat - 1 ∧
      t = { s with delay := t.delay, sound := t.sound, schedule := rest } := by
  obtain ⟨-, hrunning⟩ := tickTimersCountsBothDown { s with schedule := rest }
  exact ⟨_, step_of_schedule_cons hschedule, hrunning hrun⟩

/-- Settles O15, by induction on the number of events: `step_of_tickTimers` takes 1 off each timer and leaves
the core running with the other events scheduled. -/
theorem repeatedTickTimersReachZero : Obligations.RepeatedTickTimersReachZero := by
  intro k
  induction k with
  | zero =>
    intro s rest _ hschedule
    refine ⟨s, rfl, rfl, rfl, ?_⟩
    rw [show rest = s.schedule from hschedule.symm]
  | succ k ih =>
    intro s rest hrun hschedule
    obtain ⟨u, hstep, hdelay, hsound, hu⟩ := step_of_tickTimers hrun hschedule
    obtain ⟨t, hruns, hdelays, hsounds, ht⟩ :=
      ih u rest ((congrArg State.run hu).trans hrun) (congrArg State.schedule hu)
    refine ⟨t, (core_run_succ hstep).trans hruns, by omega, by omega, ?_⟩
    rw [ht, hu]

/-! ## Devices are reached by their own instructions only (60_exceptions.md R260) -/

/-- A change of each device's state: the display, the keypad, the two timers, the random source. -/
structure DeviceChange where
  fb    : Framebuffer → Framebuffer := id
  keys  : Vector Bool 16 → Vector Bool 16 := id
  delay : Byte → Byte := id
  sound : Byte → Byte := id
  draws : Nat → Nat := id

/-- The state with the devices changed. -/
def DeviceChange.on (c : DeviceChange) (s : State) : State :=
  { s with
    fb := c.fb s.fb, keys := c.keys s.keys, delay := c.delay s.delay, sound := c.sound s.sound,
    draws := c.draws s.draws }

/-- The change leaves alone the device that is the instruction's own, if it has one (R260). -/
def DeviceChange.Spares (c : DeviceChange) : Instr → Prop
  | .clearScreen | .draw _ _ _ => c.fb = id
  | .skipKeyPressed _ | .skipKeyNotPressed _ | .getKey _ => c.keys = id
  | .loadDelay _ | .setDelay _ => c.delay = id
  | .setSound _ => c.sound = id
  | .random _ _ => c.draws = id
  | _ => True

theorem DeviceChange.skipIf_on (c : DeviceChange) (s : State) (taken : Bool) :
    (c.on s).skipIf taken = c.on (s.skipIf taken) := by
  cases taken <;> rfl

theorem DeviceChange.execRet_on (c : DeviceChange) (s : State) :
    execRet (c.on s) = mapNext c.on (execRet s) := by
  obtain hs | ⟨st, v, hs⟩ := s.stack_empty_or_concat
  · rw [execRet_empty hs, execRet_empty (s := c.on s) hs]; rfl
  · rw [execRet_pop hs, execRet_pop (s := c.on s) hs]; rfl

theorem DeviceChange.execBcd_on (c : DeviceChange) (x : Reg) (s : State) :
    execBcd x (c.on s) = mapNext c.on (execBcd x s) := by
  obtain hb | hb := Nat.lt_or_ge (s.cursor + 2) 4096
  · rw [execBcd_ok hb, execBcd_ok (s := c.on s) hb]; rfl
  · rw [execBcd_error hb, execBcd_error (s := c.on s) hb]; rfl

theorem DeviceChange.execStoreRegs_on (c : DeviceChange) (x : Reg) (s : State) :
    execStoreRegs x (c.on s) = mapNext c.on (execStoreRegs x s) := by
  obtain hb | hb := Nat.lt_or_ge (s.cursor + x.val) 4096
  · rw [execStoreRegs_ok hb, execStoreRegs_ok (s := c.on s) hb]; rfl
  · rw [execStoreRegs_error hb, execStoreRegs_error (s := c.on s) hb]; rfl

theorem DeviceChange.execLoadRegs_on (c : DeviceChange) (x : Reg) (s : State) :
    execLoadRegs x (c.on s) = mapNext c.on (execLoadRegs x s) := by
  obtain hb | hb := Nat.lt_or_ge (s.cursor + x.val) 4096
  · rw [execLoadRegs_ok hb, execLoadRegs_ok (s := c.on s) hb]; rfl
  · rw [execLoadRegs_error hb, execLoadRegs_error (s := c.on s) hb]; rfl

theorem DeviceChange.execDraw_on {c : DeviceChange} (h : c.fb = id) (x y : Reg) (n : Nibble)
    (s : State) : execDraw x y n (c.on s) = mapNext c.on (execDraw x y n s) := by
  have hfb : (c.on s).fb = s.fb := congrFun h s.fb
  have hset (f : Framebuffer) : (c.on s).setFb f = c.on (s.setFb f) := by
    simp only [on, h, id, State.setFb]
  obtain hb | hb := Nat.lt_or_ge 4096 (s.cursor + n.toNat)
  · rw [execDraw_error hb, execDraw_error (s := c.on s) hb]; rfl
  · rw [execDraw_ok hb, execDraw_ok (s := c.on s) hb, hfb, hset]; rfl

theorem DeviceChange.keyPressed_on {c : DeviceChange} (h : c.keys = id) (s : State) (v : Byte) :
    (c.on s).keyPressed v = s.keyPressed v := by
  simp only [State.keyPressed, on, h, id]

theorem DeviceChange.execGetKey_on {c : DeviceChange} (h : c.keys = id) (x : Reg) (s : State) :
    execGetKey x (c.on s) = mapNext c.on (execGetKey x s) := by
  have hfirst : (c.on s).firstKey = s.firstKey := by simp only [State.firstKey, on, h, id]
  cases hk : s.firstKey with
  | some k => rw [execGetKey_keyDown hk, execGetKey_keyDown (hfirst.trans hk)]; rfl
  | none => rw [execGetKey_noKey hk, execGetKey_noKey (hfirst.trans hk)]; rfl

/-- An instruction whose own device is spared runs the same on changed devices, and carries the change
along. -/
theorem DeviceChange.exec_on {c : DeviceChange} {i : Instr} (hi : c.Spares i) (s : State) :
    exec i (c.on s) = mapNext c.on (exec i s) := by
  cases i with
  | draw x y n => exact execDraw_on hi x y n s
  | getKey x => exact execGetKey_on hi x s
  | ret => exact c.execRet_on s
  | bcd x => exact c.execBcd_on x s
  | storeRegs x => exact c.execStoreRegs_on x s
  | loadRegs x => exact c.execLoadRegs_on x s
  | skipKeyPressed | skipKeyNotPressed =>
    exact congrArg Host.Outcome.next (by rw [keyPressed_on hi]; exact c.skipIf_on s _)
  | skipEq | skipNeq | skipEqReg | skipNeqReg => exact congrArg Host.Outcome.next (c.skipIf_on s _)
  | clearScreen | loadDelay | setDelay | setSound | random =>
    obtain ⟨fb, keys, delay, sound, draws⟩ := c
    cases hi
    rfl
  | jump | call | loadImm | addImm | move | or | and | xor | add | sub | subn | shr | shl | loadIndex
  | jumpOffset | addIndex | fontAddress => rfl

/-- Settles O49: putting a device in a given state is a change that spares every instruction but the
device's own, so `DeviceChange.exec_on` says that it is neither read nor written. -/
theorem devicesReachedByTheirInstructionsOnly : Obligations.DevicesReachedByTheirInstructionsOnly := by
  refine fun i s => ⟨fun hclear hdraw f => ?display, fun hpressed hnotPressed hgetKey p => ?keypad,
    fun hload hset v => ?delay, fun hset v => ?sound, fun hrandom d => ?random⟩
  case display =>
    refine DeviceChange.exec_on (c := { fb := fun _ => f }) ?_ s
    cases i with
    | clearScreen => exact absurd rfl hclear
    | draw x y n => exact absurd rfl (hdraw x y n)
    | _ => trivial
  case keypad =>
    refine DeviceChange.exec_on (c := { keys := fun _ => p }) ?_ s
    cases i with
    | skipKeyPressed x => exact absurd rfl (hpressed x)
    | skipKeyNotPressed x => exact absurd rfl (hnotPressed x)
    | getKey x => exact absurd rfl (hgetKey x)
    | _ => trivial
  case delay =>
    refine DeviceChange.exec_on (c := { delay := fun _ => v }) ?_ s
    cases i with
    | loadDelay x => exact absurd rfl (hload x)
    | setDelay x => exact absurd rfl (hset x)
    | _ => trivial
  case sound =>
    refine DeviceChange.exec_on (c := { sound := fun _ => v }) ?_ s
    cases i with
    | setSound x => exact absurd rfl (hset x)
    | _ => trivial
  case random =>
    refine DeviceChange.exec_on (c := { draws := fun _ => d }) ?_ s
    cases i with
    | random x nn => exact absurd rfl (hrandom x nn)
    | _ => trivial

end Sys2Proof.Machine

namespace Sys2Proof.Machine

/-! ## What a sequence of stores leaves (43_index_memory.md R183, R184) -/

/-- The state a sequence of stores from `I` on leaves. -/
def State.stored (s : State) (bs : List Byte) : State := s.setMem (Memory.writeAll s.mem s.cursor bs)

/-- A bcd that completes had room for its digits and stored them. -/
theorem execBcd_next_stored {x : Reg} {s t : State} (h : execBcd x s = .next t) :
    s.cursor + (decimalDigits (s.reg x)).length ≤ 4096 ∧ t = s.stored (decimalDigits (s.reg x)) := by
  obtain hb | hb := Nat.lt_or_ge (s.cursor + 2) 4096
  · rw [execBcd_ok hb] at h
    cases h
    exact ⟨by rw [length_decimalDigits]; omega, rfl⟩
  · rw [execBcd_error hb] at h; cases h

/-- A store-regs that completes had room for its registers and stored them. -/
theorem execStoreRegs_next_stored {x : Reg} {s t : State} (h : execStoreRegs x s = .next t) :
    s.cursor + (s.regsUpTo x).length ≤ 4096 ∧ t = s.stored (s.regsUpTo x) := by
  obtain hb | hb := Nat.lt_or_ge (s.cursor + x.val) 4096
  · rw [execStoreRegs_ok hb] at h
    cases h
    exact ⟨by rw [State.length_regsUpTo]; omega, rfl⟩
  · rw [execStoreRegs_error hb] at h; cases h

/-! ## The canonical form of memory is kept (20_memory.md R61, R71) -/

/-- Of the instructions only the two that write memory matter, and they write inside the address space. -/
theorem exec_keeps_wf {i : Instr} {s t : State} (hwf : Memory.wf s.mem = true)
    (h : exec i s = .next t) : Memory.wf t.mem = true := by
  cases i with
  | bcd =>
    obtain ⟨hfits, rfl⟩ := execBcd_next_stored h
    exact Memory.wf_writeAll hwf hfits
  | storeRegs =>
    obtain ⟨hfits, rfl⟩ := execStoreRegs_next_stored h
    exact Memory.wf_writeAll hwf hfits
  | _ => rwa [exec_mem (by nofun) (by nofun) h]

theorem tick_keeps_wf {s t : State} (hwf : Memory.wf s.mem = true) (h : tick s = .next t) :
    Memory.wf t.mem = true := by
  obtain ⟨-, rfl⟩ | ⟨-, -, ⟨i, -, hi⟩ | ⟨-, rfl⟩⟩ := tick_next h
  · exact hwf
  · exact exec_keeps_wf (s := s.advance) hwf hi
  · exact hwf

/-- The bytes of an image that are kept fit between 0x200 and the end of memory (R71). -/
theorem loadProgram_keeps_wf {image : List Byte} {s t : State} (hwf : Memory.wf s.mem = true)
    (h : loadProgram image s = .next t) : Memory.wf t.mem = true := by
  have hlen : (image.take 3584).length ≤ 3584 := List.length_take_le 3584 image
  rw [loadProgram_next h]
  exact Memory.wf_writeAll hwf (by omega)

theorem tickTimers_mem (s : State) : (tickTimers s).mem = s.mem := by
  unfold tickTimers
  split <;> rfl

theorem setKeysEvent_mem (p : Vector Bool 16) (s : State) : (setKeysEvent p s).mem = s.mem := by
  unfold setKeysEvent
  split <;> rfl

/-- Settles O57: a tick by `tick_keeps_wf`, a load by `loadProgram_keeps_wf`; reset lists nothing, and the
other two events leave memory alone. -/
theorem stepKeepsMemoryCanonical : Obligations.StepKeepsMemoryCanonical := by
  intro s t hwf h
  obtain rfl | ⟨image, hload⟩ | htick | rfl | ⟨p, rfl⟩ := step_next h
  · exact Memory.wf_reset
  · exact loadProgram_keeps_wf (s := { s with schedule := afterNext s }) hwf hload
  · exact tick_keeps_wf (s := { s with schedule := afterNext s }) hwf htick
  · rwa [tickTimers_mem]
  · rwa [setKeysEvent_mem]

/-- Settles O59: memory by `Memory.wf_reset`, the bounds by `resetEvent_bounded`; a reset event in the state
after reset gives that state again. -/
theorem resetMeetsTheInvariants : Obligations.ResetMeetsTheInvariants :=
  ⟨Memory.wf_reset, resetEvent_bounded State.reset⟩

/-! ## Reset and boot (70_reset_and_hazards.md R280, R281) -/

/-- Settles O18: a reset leaves no mark of a tick and memory canonical, so the load writes the image, of which
a fetch at the reset pc reads the first two bytes. -/
theorem bootStartsAtFirstImageWord : Obligations.BootStartsAtFirstImageWord := by
  intro s b0 b1 rest
  obtain ⟨t, hload, hframe, hbyte⟩ :=
    loadProgramWritesImage (resetEvent s) (b0 :: b1 :: rest) rfl Memory.wf_reset
  have hpc : t.pc = 0x0200#16 := by rw [hframe]; rfl
  have hpcNat : t.pc.toNat = 0x200 := congrArg BitVec.toNat hpc
  have hlen : 2 ≤ min (b0 :: b1 :: rest).length 3584 := by
    simp only [List.length_cons]; omega
  have hfirst : t.byteAt 0x200 = b0 := by rw [hbyte, if_pos (by omega)]; rfl
  have hsecond : t.byteAt 0x201 = b1 := by rw [hbyte, if_pos (by omega)]; rfl
  refine ⟨t, hload, hpc, ?_⟩
  rw [t.fetchWord_ok (by omega), hpcNat, hfirst, hsecond]

theorem length_fontBytes : fontBytes.length = 80 := rfl

theorem getD_of_length_le {bs : List Byte} {k : Nat} (h : bs.length ≤ k) (d : Byte) :
    bs.getD k d = d := by
  rw [List.getD_eq_getElem?_getD, List.getElem?_eq_none h, Option.getD_none]

/-- The font's 80 bytes at its base, and 0 everywhere else (R46, R69). -/
theorem Memory.initByte_eq (a : Nat) : Memory.initByte a =
    if fontBase ≤ a ∧ a < fontBase + 80 then fontBytes.getD (a - fontBase) 0 else 0 := by
  have hbase := fontBase_bound
  split
  · next hfont =>
    have hin := Memory.initByte_font (k := a - fontBase) (by omega)
    rwa [Nat.add_sub_cancel' hfont.1] at hin
  · next hfont =>
    simp only [Memory.initByte]
    split
    · rfl
    · split
      · exact getD_of_length_le (by rw [length_fontBytes]; omega) _
      · rfl

/-- Settles O19: reset writes each piece with a constant; the display is the blank one and memory, with
nothing listed, reads as `Memory.initByte`. -/
theorem resetRestoresEveryPiece : Obligations.ResetRestoresEveryPiece :=
  fun _ => ⟨rfl, rfl, rfl, rfl, rfl, rfl, fun r => Vector.getElem_replicate r.isLt,
    fun k => Vector.getElem_replicate k.isLt, Framebuffer.cell_blank, rfl, Memory.initByte_eq⟩

end Sys2Proof.Machine

namespace Sys2Proof.Machine

/-! ## The bytes a store leaves in memory (43_index_memory.md R183, R184) -/

section Stored
variable {s : State} {bs : List Byte}

theorem State.stored_byteAt (hwf : Memory.wf s.mem = true) (hfits : s.cursor + bs.length ≤ 4096)
    (c : Nat) : (s.stored bs).byteAt c =
      if s.cursor ≤ c ∧ c < s.cursor + bs.length then bs.getD (c - s.cursor) 0 else s.byteAt c :=
  Memory.read_writeAll hwf hfits c

theorem State.stored_byteAt_cursor_add (hwf : Memory.wf s.mem = true)
    (hfits : s.cursor + bs.length ≤ 4096) {k : Nat} (hk : k < bs.length) :
    (s.stored bs).byteAt (s.cursor + k) = bs.getD k 0 := by
  rw [State.stored_byteAt hwf hfits, if_pos (by omega), Nat.add_sub_cancel_left]

theorem onlyBytes_stored (hwf : Memory.wf s.mem = true) (hfits : s.cursor + bs.length ≤ 4096) :
    OnlyBytes s.cursor bs.length s (s.stored bs) :=
  ⟨rfl, fun c hc => by rw [State.stored_byteAt hwf hfits, if_neg hc]⟩

end Stored

/-- Each digit is below 10, so as a byte it is the same number. -/
theorem decimalDigits_toNat (v : Byte) :
    (decimalDigits v).map BitVec.toNat = [v.toNat / 100, v.toNat / 10 % 10, v.toNat % 10] := by
  have hv := v.isLt
  simp only [decimalDigits, List.map_cons, List.map_nil, BitVec.toNat_ofNat, List.cons.injEq, and_true]
  omega

/-- The number of a listed byte is the listed byte's number; beyond the list both are 0. -/
theorem toNat_getD (bs : List Byte) (k : Nat) :
    (bs.getD k 0).toNat = (bs.map BitVec.toNat).getD k 0 := by
  rw [List.getD_eq_getElem?_getD, List.getD_eq_getElem?_getD, List.getElem?_map]
  cases bs[k]? <;> rfl

/-- Settles O36: the bytes stored are the three of `decimalDigits`. -/
theorem bcdStoresThreeDigits : Obligations.BcdStoresThreeDigits := by
  intro x s hwf hb
  have hfits : s.cursor + (decimalDigits (s.reg x)).length ≤ 4096 := by
    rw [length_decimalDigits]; omega
  have hdigit (k : Nat) (hk : k < 3) :
      ((s.stored (decimalDigits (s.reg x))).byteAt (s.cursor + k)).toNat =
        [(s.reg x).toNat / 100, (s.reg x).toNat / 10 % 10, (s.reg x).toNat % 10].getD k 0 := by
    rw [State.stored_byteAt_cursor_add hwf hfits hk, toNat_getD, decimalDigits_toNat]
  exact ⟨_, execBcd_ok hb, hdigit 0 (by decide), hdigit 1 (by decide), hdigit 2 (by decide),
    onlyBytes_stored hwf hfits⟩

/-- Settles O37: the bytes stored are the registers up to `x[X]`, one more than `X` of them. -/
theorem storeRegsWritesRegistersInOrder : Obligations.StoreRegsWritesRegistersInOrder := by
  intro x s hwf hb
  have hlen : (s.regsUpTo x).length = x.val + 1 := s.length_regsUpTo x
  have hfits : s.cursor + (s.regsUpTo x).length ≤ 4096 := by omega
  refine ⟨s.stored (s.regsUpTo x), execStoreRegs_ok hb, fun r hr => ?_, ?_⟩
  · rw [State.stored_byteAt_cursor_add hwf hfits (hlen ▸ Nat.lt_succ_of_le hr), State.getD_regsUpTo s hr]
  · rw [← hlen]
    exact onlyBytes_stored hwf hfits

/-! ## What a load leaves in the registers (43_index_memory.md R185) -/

/-- Settles O38: the bytes loaded lie over the registers, of which those beyond the list stay. -/
theorem loadRegsReadsRegistersInOrder : Obligations.LoadRegsReadsRegistersInOrder := by
  intro x s hb
  refine ⟨_, execLoadRegs_ok hb, fun r hr => ?_, rfl, fun r hr => ?_⟩
  · have hr' : r.val < x.val + 1 := Nat.lt_succ_of_le hr
    simp [hr']
  · have hr' : x.val + 1 ≤ r.val := Nat.lt_of_not_le hr
    rw [State.setRegsFrom0_reg, getD_of_length_le]
    rwa [List.length_map, List.length_range]

/-- A state changed in some registers only, which hold what they held, is unchanged. -/
theorem OnlyRegs.eq_of_reg_eq {touched : Reg → Prop} {s t : State} (h : OnlyRegs touched s t)
    (hreg : ∀ r, touched r → t.reg r = s.reg r) : t = s := by
  obtain ⟨ht, hrest⟩ := h
  rw [ht, show t.regs = s.regs from State.reg_ext fun r => ?_]
  by_cases hr : touched r
  · exact hreg r hr
  · exact hrest r hr

/-- Settles O39: `I` is where the store left it, so each register loaded is the byte the store took from
it. -/
theorem loadAfterStoreChangesNothing : Obligations.LoadAfterStoreChangesNothing := by
  intro x s hwf hb
  obtain ⟨t, hstore, hbytes, hframe, -⟩ := storeRegsWritesRegistersInOrder x s hwf hb
  have hcursor : t.cursor = s.cursor := by rw [hframe]; rfl
  have hreg (r : Reg) : t.reg r = s.reg r := by rw [hframe]; rfl
  obtain ⟨u, hload, hregs, honly⟩ := loadRegsReadsRegistersInOrder x t (by omega)
  have hu : u = t := honly.eq_of_reg_eq fun r hr => by rw [hregs r hr, hcursor, hbytes r hr, hreg]
  exact ⟨t, hstore, by rw [hload, hu]⟩

/-- Settles O40: the fetch reads memory itself, which holds the two registers the store wrote there. -/
theorem storedWordIsFetchedNext : Obligations.StoredWordIsFetchedNext := by
  intro x r q s hwf hb hqx hqr hpc
  have hqx' : q.val ≤ x.val := hqx
  obtain ⟨t, hstore, hbytes, hframe, -⟩ := storeRegsWritesRegistersInOrder x s hwf hb
  have htpc : t.pc.toNat = s.cursor + r.val := by rw [hframe]; exact hpc
  have hhigh : t.byteAt t.pc.toNat = s.reg r := by rw [htpc, hbytes r (Fin.le_def.mpr (by omega))]
  have hlow : t.byteAt (t.pc.toNat + 1) = s.reg q := by
    rw [htpc, Nat.add_assoc, ← hqr, hbytes q hqx]
  exact ⟨t, hstore, by rw [t.fetchWord_ok (by omega), hhigh, hlow]⟩

/-! ## I after font-address and add-index (43_index_memory.md R181, R182) -/

/-- Settles O35: the glyph's five bytes lie inside the font region, five times its number from the base. -/
theorem fontAddressPointsAtGlyph : Obligations.FontAddressPointsAtGlyph := by
  intro x s hfont
  obtain ⟨t, hexec, hindex, hframe⟩ := loadIndexAndFontAddressSetIndex.2 x s
  have hbyteAt (a : Nat) : t.byteAt a = s.byteAt a := by rw [hframe]; rfl
  have hglyph (k : Nat) (hk : k < 5) :
      t.byteAt (t.cursor + k) = fontBytes.getD (5 * ((s.reg x).toNat % 16) + k) 0 := by
    rw [State.cursor, hindex, hbyteAt, Nat.add_assoc, hfont _ (by omega)]
  refine ⟨t, hexec, hglyph, fun hzero => ?_⟩
  rw [hzero] at hglyph
  exact List.map_congr_left fun k hk => hglyph k (List.mem_range.mp hk)

/-- Settles O34: one write of `I`, of the 16 bit sum with the register's byte, whose number zero extension
keeps. -/
theorem addIndexWrapsWithoutFlag : Obligations.AddIndexWrapsWithoutFlag := by
  intro x s
  refine ⟨s.setIndex (s.index + zext16 (s.reg x)), rfl, ?_, rfl⟩
  rw [State.setIndex_index, BitVec.toNat_add, zext16, BitVec.toNat_setWidth_of_le (by decide)]

end Sys2Proof.Machine

namespace Sys2Proof.Machine

/-! ## get-key and the return after a call (45_keypad_timers.md R222, 41_control_transfer.md R140) -/

/-- With no key down there is no first key. -/
theorem firstKey_of_noKeyDown {s : State} (h : ∀ k : Fin 16, s.keys[k.val] = false) :
    s.firstKey = none :=
  List.find?_eq_none.mpr fun k _ => ne_true_of_eq_false (h k)

/-- The first key is the one that is down with no lower one down. -/
theorem firstKey_of_lowest {s : State} {k : Fin 16} (hdown : s.keys[k.val] = true)
    (hlower : ∀ j : Fin 16, j < k → s.keys[j.val] = false) : s.firstKey = some k := by
  refine List.find?_eq_some_iff_getElem.mpr ⟨hdown, k.val, by simp, by simp, fun j hj => ?_⟩
  simpa using hlower ⟨j, by omega⟩ hj

theorem keyByte_toNat (k : Fin 16) : (keyByte k).toNat = k.val :=
  Nat.mod_eq_of_lt (Nat.lt_trans k.isLt (by decide))

/-- Settles O46: the two cases of `execGetKey`, by what the first key is. -/
theorem getKeyTakesLowestOrRewinds : Obligations.GetKeyTakesLowestOrRewinds := by
  refine fun x s => ⟨fun k hdown hlower => ?_, fun hnone => ?_⟩
  · refine ⟨_, execGetKey_keyDown (firstKey_of_lowest hdown hlower), ?_, onlyRegs_setReg s x _⟩
    rw [State.setReg_reg_self, keyByte_toNat]
  · exact execGetKey_noKey (firstKey_of_noKeyDown hnone)

/-- Settles O47: get-key takes back the 2 by which the fetch advanced the pc. -/
theorem getKeyWaitIsARepeatedTick : Obligations.GetKeyWaitIsARepeatedTick := by
  intro x s h hpc hdecode hnone
  obtain ⟨-, hrewinds⟩ := getKeyTakesLowestOrRewinds x
    { s with pc := s.pc + 2, errOut := none, ticked := true, schedule := afterNext s }
  rw [stepRunsDecodedInstruction s _ h hpc hdecode (Instr.wellFormed_eq_true _), hrewinds hnone,
    BitVec.add_sub_cancel]

/-- Settles O30: the return pops the pc the call pushed. -/
theorem returnResumesAfterTheCall : Obligations.ReturnResumesAfterTheCall :=
  fun nnn s _ hu =>
    ⟨(s.push s.pc).setPc (immAddr nnn), _, rfl, hu.symm, execRet_pop hu, rfl, rfl⟩

/-! ## The arithmetic and logic instructions (42_load_alu.md R163 to R171) -/

/-- Settles O22: one register write of the bitwise result; no flag is written. -/
theorem logicalOpsWriteDestinationOnly : Obligations.LogicalOpsWriteDestinationOnly := by
  refine fun x y s => ⟨⟨_, rfl, onlyRegs_setReg s x _, fun k => ?or⟩,
    ⟨_, rfl, onlyRegs_setReg s x _, fun k => ?and⟩, ⟨_, rfl, onlyRegs_setReg s x _, fun k => ?xor⟩⟩
  case or => rw [State.setReg_reg_self, BitVec.getLsbD_or]
  case and => rw [State.setReg_reg_self, BitVec.getLsbD_and]
  case xor => rw [State.setReg_reg_self, BitVec.getLsbD_xor]

/-! ### A result and then a flag (10_state.md R26) -/

theorem State.setRegThenFlag_reg_flag (s : State) (x : Reg) (v f : Byte) :
    (s.setRegThenFlag x v f).reg flagReg = f :=
  State.setReg_reg_self _ flagReg f

theorem State.setRegThenFlag_reg_dest (s : State) {x : Reg} (hx : x ≠ flagReg) (v f : Byte) :
    (s.setRegThenFlag x v f).reg x = v := by
  rw [State.setRegThenFlag_reg, if_neg hx, if_pos rfl]

theorem onlyRegs_setRegThenFlag (s : State) (x : Reg) (v f : Byte) :
    OnlyRegs (fun r => r = x ∨ r = flagReg) s (s.setRegThenFlag x v f) := by
  refine ⟨rfl, fun r hr => ?_⟩
  obtain ⟨hrx, hrf⟩ := not_or.mp hr
  rw [State.setRegThenFlag_reg, if_neg hrf, if_neg hrx]

theorem flagByte_decide (p : Prop) [Decidable p] : flagByte (decide p) = if p then 1 else 0 := by
  by_cases hp : p <;> simp [flagByte, hp]

theorem flagByte_toNat (b : Bool) : (flagByte b).toNat = b.toNat := by
  cases b <;> rfl

/-- Settles O23: the sum of bytes is that of numbers modulo 256, and the flag its carry. -/
theorem addWritesSumAndCarry : Obligations.AddWritesSumAndCarry := by
  refine fun x y s => ⟨_, rfl, fun hx => ?_, ?_, onlyRegs_setRegThenFlag s x _ _⟩
  · rw [s.setRegThenFlag_reg_dest hx, BitVec.toNat_add]
  · rw [s.setRegThenFlag_reg_flag, carryFlag, flagByte_decide]

/-- What the difference of two bytes and its not-borrow leave: sub and subn take the operands in turn. -/
theorem State.setRegThenFlag_sub (s : State) (x : Reg) (a b : Byte) :
    (x ≠ flagReg → ((s.setRegThenFlag x (a - b) (noBorrowFlag a b)).reg x).toNat =
      (a.toNat + 256 - b.toNat) % 256) ∧
    (s.setRegThenFlag x (a - b) (noBorrowFlag a b)).reg flagReg =
      (if a.toNat ≥ b.toNat then 1 else 0) := by
  refine ⟨fun hx => ?_, ?_⟩
  · rw [s.setRegThenFlag_reg_dest hx]
    bv_omega
  · rw [s.setRegThenFlag_reg_flag, noBorrowFlag, flagByte_decide]

/-- Settles O24: `State.setRegThenFlag_sub`, with the operands in either order. -/
theorem subtractsWriteDifferenceAndNoBorrow : Obligations.SubtractsWriteDifferenceAndNoBorrow := by
  intro x y s
  obtain ⟨hsub, hsubFlag⟩ := s.setRegThenFlag_sub x (s.reg x) (s.reg y)
  obtain ⟨hsubn, hsubnFlag⟩ := s.setRegThenFlag_sub x (s.reg y) (s.reg x)
  exact ⟨⟨_, rfl, hsub, hsubFlag, onlyRegs_setRegThenFlag s x _ _⟩,
    ⟨_, rfl, hsubn, hsubnFlag, onlyRegs_setRegThenFlag s x _ _⟩⟩

theorem shiftedOutLow_toNat (b : Byte) : (shiftedOutLow b).toNat = b.toNat % 2 := by
  rw [shiftedOutLow, flagByte_toNat, BitVec.getLsbD, Nat.toNat_testBit, Nat.pow_zero, Nat.div_one]

theorem shiftedOutHigh_toNat (b : Byte) : (shiftedOutHigh b).toNat = b.toNat / 128 := by
  have hb := b.isLt
  rw [shiftedOutHigh, flagByte_toNat, BitVec.getLsbD, Nat.toNat_testBit]
  omega

/-- Settles O25: a shift by 1 halves the source, or doubles it modulo 256, and the flag is the bit lost. -/
theorem shiftsWriteResultAndLostBit : Obligations.ShiftsWriteResultAndLostBit := by
  refine fun x y s => ⟨⟨_, rfl, fun hx => ?shr, ?shrFlag, onlyRegs_setRegThenFlag s x _ _⟩,
    ⟨_, rfl, fun hx => ?shl, ?shlFlag, onlyRegs_setRegThenFlag s x _ _⟩⟩
  case shr =>
    rw [s.setRegThenFlag_reg_dest hx, BitVec.toNat_ushiftRight, Nat.shiftRight_eq_div_pow, Nat.pow_one]
  case shrFlag => rw [s.setRegThenFlag_reg_flag, shiftedOutLow_toNat]
  case shl => rw [s.setRegThenFlag_reg_dest hx, BitVec.toNat_shiftLeft, Nat.shiftLeft_eq, Nat.pow_one]
  case shlFlag => rw [s.setRegThenFlag_reg_flag, shiftedOutHigh_toNat]

/-- Settles O26: the byte drawn is masked into the register of the state that will draw the next one. -/
theorem randomMasksAFreeByte : Obligations.RandomMasksAFreeByte := by
  intro x nn s
  refine ⟨s.countDraw.setReg x (Config.randomByte s.draws &&& nn), rfl, fun k => ?_, rfl, rfl,
    fun r hr => State.setReg_reg_of_ne s.countDraw _ hr⟩
  rw [State.setReg_reg_self, BitVec.getLsbD_and]

end Sys2Proof.Machine

namespace Sys2Proof.Machine

/-! ## No register changes but those an instruction names (10_state.md section 2) -/

theorem execLoadRegs_reg {x r : Reg} {s t : State} (h : execLoadRegs x s = .next t) (hr : ¬ r ≤ x) :
    t.reg r = s.reg r := by
  obtain hb | hb := Nat.lt_or_ge (s.cursor + x.val) 4096
  · obtain ⟨u, hu, -, -, hrest⟩ := loadRegsReadsRegistersInOrder x s hb
    cases h.symm.trans hu
    exact hrest r hr
  · rw [execLoadRegs_error hb] at h; cases h

theorem execDraw_reg {x y r : Reg} {n : Nibble} {s t : State} (h : execDraw x y n s = .next t)
    (hr : r ≠ flagReg) : t.reg r = s.reg r := by
  obtain hb | hb := Nat.lt_or_ge 4096 (s.cursor + n.toNat)
  · rw [execDraw_error hb] at h; cases h
  · cases h.symm.trans (exec_draw_ok hb)
    exact s.afterDraw_reg_of_ne x y n hr

/-- Settles O54: each way of changing the pc leaves the registers alone, but for the key number of get-key;
of the instructions that change no pc, each writes its destination or no register. -/
theorem registersChangeOnlyAsNamed : Obligations.RegistersChangeOnlyAsNamed := by
  intro i s t h r hr
  cases exec_next h with
  | skip _ taken => rw [State.skipIf_eq, State.setPc_reg]
  | keyDown => exact State.setReg_reg_of_ne s _ hr
  | noKey | jump | call | jumpOffset | retEmpty | retPop => rfl
  | data hpc =>
    cases i with
    | loadImm | addImm | move | or | and | xor | loadDelay =>
      cases h; exact State.setReg_reg_of_ne s _ hr
    | random => cases h; exact State.setReg_reg_of_ne s.countDraw _ hr
    | add | sub | subn | shr | shl => cases h; exact (onlyRegs_setRegThenFlag s _ _ _).2 r hr
    | draw => exact execDraw_reg h hr
    | loadRegs => exact execLoadRegs_reg h hr
    | bcd => obtain ⟨-, rfl⟩ := execBcd_next_stored h; rfl
    | storeRegs => obtain ⟨-, rfl⟩ := execStoreRegs_next_stored h; rfl
    | clearScreen | loadIndex | setDelay | setSound | addIndex | fontAddress => cases h; rfl
    | ret | jump | call | jumpOffset | getKey | skipEq | skipNeq | skipEqReg | skipNeqReg
    | skipKeyPressed | skipKeyNotPressed => cases hpc

/-! ## The call stack is reached by call and return alone (10_state.md section 5) -/

theorem State.skipIf_setStack (s : State) (st : List Word) (taken : Bool) :
    (s.setStack st).skipIf taken = (s.skipIf taken).setStack st := by
  cases taken <;> rfl

theorem execGetKey_setStack (x : Reg) (s : State) (st : List Word) :
    execGetKey x (s.setStack st) = mapNext (·.setStack st) (execGetKey x s) := by
  cases hk : s.firstKey with
  | some k => rw [execGetKey_keyDown hk, execGetKey_keyDown (s := s.setStack st) hk]; rfl
  | none => rw [execGetKey_noKey hk, execGetKey_noKey (s := s.setStack st) hk]; rfl

theorem execDraw_setStack (x y : Reg) (n : Nibble) (s : State) (st : List Word) :
    execDraw x y n (s.setStack st) = mapNext (·.setStack st) (execDraw x y n s) := by
  obtain hb | hb := Nat.lt_or_ge 4096 (s.cursor + n.toNat)
  · rw [execDraw_error hb, execDraw_error (s := s.setStack st) hb]; rfl
  · rw [execDraw_ok hb, execDraw_ok (s := s.setStack st) hb]; rfl

theorem execBcd_setStack (x : Reg) (s : State) (st : List Word) :
    execBcd x (s.setStack st) = mapNext (·.setStack st) (execBcd x s) := by
  obtain hb | hb := Nat.lt_or_ge (s.cursor + 2) 4096
  · rw [execBcd_ok hb, execBcd_ok (s := s.setStack st) hb]; rfl
  · rw [execBcd_error hb, execBcd_error (s := s.setStack st) hb]; rfl

theorem execStoreRegs_setStack (x : Reg) (s : State) (st : List Word) :
    execStoreRegs x (s.setStack st) = mapNext (·.setStack st) (execStoreRegs x s) := by
  obtain hb | hb := Nat.lt_or_ge (s.cursor + x.val) 4096
  · rw [execStoreRegs_ok hb, execStoreRegs_ok (s := s.setStack st) hb]; rfl
  · rw [execStoreRegs_error hb, execStoreRegs_error (s := s.setStack st) hb]; rfl

theorem execLoadRegs_setStack (x : Reg) (s : State) (st : List Word) :
    execLoadRegs x (s.setStack st) = mapNext (·.setStack st) (execLoadRegs x s) := by
  obtain hb | hb := Nat.lt_or_ge (s.cursor + x.val) 4096
  · rw [execLoadRegs_ok hb, execLoadRegs_ok (s := s.setStack st) hb]; rfl
  · rw [execLoadRegs_error hb, execLoadRegs_error (s := s.setStack st) hb]; rfl

/-- Settles O50: whether such an instruction faults, and what it computes, is decided without the stack, which
the next state carries along. -/
theorem stackIsPrivateToCallAndReturn : Obligations.StackIsPrivateToCallAndReturn := by
  intro i s st hret hcall
  change exec i (s.setStack st) = mapNext (·.setStack st) (exec i s)
  cases i with
  | ret => exact absurd rfl hret
  | call nnn => exact absurd rfl (hcall nnn)
  | getKey x => exact execGetKey_setStack x s st
  | draw x y n => exact execDraw_setStack x y n s st
  | bcd x => exact execBcd_setStack x s st
  | storeRegs x => exact execStoreRegs_setStack x s st
  | loadRegs x => exact execLoadRegs_setStack x s st
  | skipEq | skipNeq | skipEqReg | skipNeqReg | skipKeyPressed | skipKeyNotPressed =>
    exact congrArg Host.Outcome.next (s.skipIf_setStack st _)
  | clearScreen | jump | loadImm | addImm | move | or | and | xor | add | sub | subn | shr | shl
  | loadIndex | jumpOffset | random | loadDelay | setDelay | setSound | addIndex | fontAddress => rfl

end Sys2Proof.Machine

namespace Sys2Proof

/-! ## Words that decode, and words that do not (30_encoding.md section 2, section 3) -/

/-- Settles O5: each word is the encoding of its instruction, so it decodes as that instruction. -/
theorem scenarioAndFamilyWordsDecode : Obligations.ScenarioAndFamilyWordsDecode :=
  ⟨decodeWord_encode .clearScreen, decodeWord_encode (.loadImm 0 0x05#8),
    decodeWord_encode (.fontAddress 0), decodeWord_encode (.draw 0 0 0x5#4),
    decodeWord_encode (.jump 0xABC#12), decodeWord_encode (.call 0x300#12),
    decodeWord_encode (.skipEq 1 0x05#8), decodeWord_encode (.skipNeq 1 0x06#8),
    decodeWord_encode (.skipEqReg 1 2), decodeWord_encode (.addImm 15 0x03#8),
    decodeWord_encode (.sub 10 11), decodeWord_encode (.skipNeqReg 1 2),
    decodeWord_encode (.loadIndex 0x123#12), decodeWord_encode (.jumpOffset 0x234#12),
    decodeWord_encode (.random 1 0x0F#8), decodeWord_encode (.skipKeyNotPressed 3)⟩

/-! ### A word selects a row exactly if its fixed fields are the row's (30_encoding.md R94) -/

theorem append_inj {m n : Nat} {hi hi' : BitVec m} {lo lo' : BitVec n} :
    hi ++ lo = hi' ++ lo' ↔ hi = hi' ∧ lo = lo' := by
  refine ⟨fun h => ?_, fun ⟨hhi, hlo⟩ => by rw [hhi, hlo]⟩
  have hlo : lo = lo' := by
    rw [← extract_low hi lo, h, extract_low]
  rw [hlo, BitVec.append_left_inj] at h
  exact ⟨h, hlo⟩

theorem maskOp_eq_fields (w : Word) : w &&& 0xF000#16 = fieldOp w ++ 0#12 := by
  rw [← maskOp_packNNN (fieldOp w) (fieldNNN w), fieldOp_append_fieldNNN]

theorem maskOpN_eq_fields (w : Word) : w &&& 0xF00F#16 = fieldOp w ++ 0#4 ++ 0#4 ++ fieldN w := by
  rw [← maskOpN_pack44 (fieldOp w) (fieldX w) (fieldY w) (fieldN w), fields_append44]

theorem maskOpLow_eq_fields (w : Word) : w &&& 0xF0FF#16 = fieldOp w ++ 0#4 ++ fieldNN w := by
  rw [← maskOpLow_pack8 (fieldOp w) (fieldX w) (fieldNN w), fields_append8]

section Masks
variable {w v : Word}

/-- A pattern whose bits all lie under its mask is what the mask keeps of it. -/
theorem mask_eq_iff {m : Word} (hv : v &&& m = v) : w &&& m = v ↔ w &&& m = v &&& m := by
  rw [hv]

theorem maskAll_eq_iff : w &&& 0xFFFF#16 = v ↔ fieldOp w = v.extractLsb' 12 4 ∧ w = v := by
  have hmask : w &&& 0xFFFF#16 = w := BitVec.and_allOnes
  rw [hmask, iff_and_self]
  exact congrArg fieldOp

theorem maskOp_eq_iff (hv : v &&& 0xF000#16 = v) :
    w &&& 0xF000#16 = v ↔ fieldOp w = v.extractLsb' 12 4 := by
  rw [mask_eq_iff hv, maskOp_eq_fields, maskOp_eq_fields, BitVec.append_left_inj]
  rfl

theorem maskOpN_eq_iff (hv : v &&& 0xF00F#16 = v) :
    w &&& 0xF00F#16 = v ↔ fieldOp w = v.extractLsb' 12 4 ∧ fieldN w = v.extractLsb' 0 4 := by
  rw [mask_eq_iff hv, maskOpN_eq_fields, maskOpN_eq_fields, append_inj,
    BitVec.append_left_inj, BitVec.append_left_inj]
  rfl

theorem maskOpLow_eq_iff (hv : v &&& 0xF0FF#16 = v) :
    w &&& 0xF0FF#16 = v ↔ fieldOp w = v.extractLsb' 12 4 ∧ fieldNN w = v.extractLsb' 0 8 := by
  rw [mask_eq_iff hv, maskOpLow_eq_fields, maskOpLow_eq_fields, append_inj,
    BitVec.append_left_inj]
  rfl

end Masks

/-- What each family of first nibbles asks of a word that selects none of its rows, in the order of R94. -/
theorem decodeWord_none_iff_fields (w : Word) : decodeWord w = none ↔
    (fieldOp w = 0x0#4 → w ∉ [0x00E0#16, 0x00EE#16]) ∧
    fieldOp w ∉ [0x1#4, 0x2#4, 0x3#4, 0x4#4] ∧
    (fieldOp w = 0x5#4 → fieldN w ≠ 0x0#4) ∧
    fieldOp w ∉ [0x6#4, 0x7#4] ∧
    (fieldOp w = 0x8#4 →
      fieldN w ∉ [0x0#4, 0x1#4, 0x2#4, 0x3#4, 0x4#4, 0x5#4, 0x7#4, 0x6#4, 0xE#4]) ∧
    (fieldOp w = 0x9#4 → fieldN w ≠ 0x0#4) ∧
    fieldOp w ∉ [0xA#4, 0xB#4, 0xC#4, 0xD#4] ∧
    (fieldOp w = 0xE#4 → fieldNN w ∉ [0x9E#8, 0xA1#8]) ∧
    (fieldOp w = 0xF#4 →
      fieldNN w ∉ [0x07#8, 0x15#8, 0x18#8, 0x1E#8, 0x0A#8, 0x29#8, 0x33#8, 0x55#8, 0x65#8]) := by
  simp only [decodeWord_none, opcodeRows, opcodeRowsLow, opcodeRowsHigh, List.cons_append,
    List.nil_append, List.forall_mem_cons, OpcodeRow.selects, beq_eq_false_iff_ne, ne_eq]
  simp (disch := decide) only [maskAll_eq_iff, maskOp_eq_iff, maskOpN_eq_iff, maskOpLow_eq_iff,
    BitVec.reduceExtractLsb', not_and, List.mem_cons, List.not_mem_nil, or_false, not_or,
    imp_and, and_assoc, false_imp_iff, implies_true, and_true]

/-- The operations of family 8 and the last nibbles the table lists for it are all sixteen, each once. -/
theorem not_mem_family8_iff (n : Nibble) :
    n ∉ [0x0#4, 0x1#4, 0x2#4, 0x3#4, 0x4#4, 0x5#4, 0x7#4, 0x6#4, 0xE#4] ↔
      n ∈ [0x8#4, 0x9#4, 0xA#4, 0xB#4, 0xC#4, 0xD#4, 0xF#4] := by
  revert n; decide

/-- The table lists the low bytes of family F in rising order, the opcode map in another. -/
theorem not_mem_familyF_iff (b : Byte) :
    b ∉ [0x07#8, 0x15#8, 0x18#8, 0x1E#8, 0x0A#8, 0x29#8, 0x33#8, 0x55#8, 0x65#8] ↔
      b ∉ [0x07#8, 0x0A#8, 0x15#8, 0x18#8, 0x1E#8, 0x29#8, 0x33#8, 0x55#8, 0x65#8] :=
  not_congr (List.Perm.mem_iff (by decide))

/-- The first nibbles of the table's six lines, and those whose family matches every word. -/
theorem nibble_line_or_any (v : Nibble) :
    (v = 0x0#4 ∨ v = 0x5#4 ∨ v = 0x8#4 ∨ v = 0x9#4 ∨ v = 0xE#4 ∨ v = 0xF#4) ∨
      (v = 0x1#4 ∨ v = 0x2#4 ∨ v = 0x3#4 ∨ v = 0x4#4 ∨ v = 0x6#4 ∨ v = 0x7#4 ∨ v = 0xA#4 ∨
        v = 0xB#4 ∨ v = 0xC#4 ∨ v = 0xD#4) := by
  revert v; decide

/-- Settles O4, by the first nibble: on a line of the table that line says what its family asks, and every
other line is about another family; off the table the family matches the word. -/
theorem unmatchedWordsAreExactlyTheTable : Obligations.UnmatchedWordsAreExactlyTheTable := by
  intro w
  rw [decodeWord_none_iff_fields, not_mem_family8_iff, not_mem_familyF_iff]
  obtain hline | hany := nibble_line_or_any (fieldOp w)
  · obtain h | h | h | h | h | h := hline <;> simp [h]
  · obtain h | h | h | h | h | h | h | h | h | h := hany <;> simp [h]

end Sys2Proof
